-- ==== Sys2Proof/Word.lean ====
section
/-! DEFINITION. The word types of CRC32E (00_scope.md R6, R7, R8; 30_encoding.md R80, R81). -/

namespace Sys2Proof

/-- XLEN = 32: a register, a command word, an access descriptor, a wdata (R6, R80, R81). -/
abbrev Word := BitVec 32

/-- One byte of the image buffer (R37). -/
abbrev Byte := BitVec 8

/-- The OFFSET field of an access descriptor: 20 bits, exactly IMG_CAP offsets (R81, D35). -/
abbrev Offset := BitVec 20

/-- LEN_BITS = 21: what LEN and PTR hold, because LEN can equal IMG_CAP (R6, R7). -/
abbrev Length := BitVec 21

end Sys2Proof
end

