-- ==== Sys2Proof/Config.lean ====
section
/-! DEFINITION. The implementation parameters of CRC32E (00_scope.md R6, 10_state.md R42) and the free value of
the model. An `opaque` constant has no body: no proof can see what it is. -/

namespace Sys2Proof.Config

/-- SEED, the accumulator's initial value, a constant of the hardware (R6, R25). -/
def seed : Word := 0xFFFFFFFF#32

/-- POLY_RESET, the polynomial after reset (R6, R23). -/
def polyReset : Word := 0x04C11DB7#32

/-- IMG_CAP, the image buffer's size in bytes: 1 MiB (R6, R37). -/
def imgCap : Nat := 0x100000

/-- WORD_BYTES, the bytes of one CRC word (R6). -/
def wordBytes : Nat := 4

/-- SLOT_BYTES, the checksum slot at the end of the image (R6). -/
def slotBytes : Nat := 4

/-- ROUNDS, the rounds of one word update (R6). -/
def rounds : Nat := 32

/-- REG_WINDOW, the size of the register window in bytes (R6, R51). -/
def regWindow : Nat := 0x40

/-- REG_BASE, OPEN: where the platform places the register window (R6, R64). No rule reads it. -/
opaque regBase : Nat

/-- IMG_BASE, OPEN: where the platform places the image window (R6, R64). No rule reads it. -/
opaque imgBase : Nat

/-- CYCLES_STEP, OPEN: the latency of one word step (R6, R215). No rule reads it. -/
opaque cyclesStep : Nat

/-- CYCLES_RUN, OPEN: the latency of a RUN (R6, R215). No rule reads it. -/
opaque cyclesRun : Nat

/-- FREE VALUE (93_implementation_defined.md U1): what the image byte at an offset holds after a reset until it is
written. The first argument numbers the reset (`State.draw`), so that each reset draws anew; the second is the image
offset. Log entry 1. -/
opaque imgDraw : Nat → Nat → Byte

end Sys2Proof.Config
end

