-- ==== Sys2Proof/Syntax.lean ====
section
/-! DEFINITION. The operations of CRC32E as syntax: one constructor per row of spec/opcode_table.json, in the table's
order. The five commands are words of the CMD register (30_encoding.md R83); the others are port transactions
(R85). A write carries the transaction's wdata, a reserved register its word number 0..7 (offset 0x20 + 4j), an image
access its OFFSET field. -/

namespace Sys2Proof

inductive Instr where
  /-- NOP, command word 0 (R120). -/
  | nop
  /-- INIT, command word 1 (R121). -/
  | init
  /-- STEP, command word 2 (R122). -/
  | step
  /-- RUN, command word 3 (R124). -/
  | run
  /-- PATCH, command word 4 (R125). -/
  | patch
  /-- RD_CMD (R141). -/
  | rdCmd
  /-- WR_CMD, which issues the command its wdata encodes (R142). -/
  | wrCmd (wdata : Word)
  /-- RD_STATUS (R143). -/
  | rdStatus
  /-- WR_STATUS (R144). -/
  | wrStatus (wdata : Word)
  /-- RD_POLY (R145). -/
  | rdPoly
  /-- WR_POLY (R146). -/
  | wrPoly (wdata : Word)
  /-- RD_LEN (R147). -/
  | rdLen
  /-- WR_LEN (R148). -/
  | wrLen (wdata : Word)
  /-- RD_PTR (R149). -/
  | rdPtr
  /-- WR_PTR (R150). -/
  | wrPtr (wdata : Word)
  /-- RD_ACC (R151). -/
  | rdAcc
  /-- WR_ACC (R152). -/
  | wrAcc (wdata : Word)
  /-- RD_RESULT (R153). -/
  | rdResult
  /-- WR_RESULT (R154). -/
  | wrResult (wdata : Word)
  /-- RD_SEED (R155). -/
  | rdSeed
  /-- WR_SEED (R156). -/
  | wrSeed (wdata : Word)
  /-- RD_RSVD, a read of the reserved offset 0x20 + 4j (R157). -/
  | rdRsvd (j : BitVec 3)
  /-- WR_RSVD, a write of the reserved offset 0x20 + 4j (R158). -/
  | wrRsvd (j : BitVec 3) (wdata : Word)
  /-- LB, an 8-bit image read (R161). -/
  | lb (off : Offset)
  /-- LH, a 16-bit image read (R162). -/
  | lh (off : Offset)
  /-- LW, a 32-bit image read (R163). -/
  | lw (off : Offset)
  /-- SB, an 8-bit image write (R164). -/
  | sb (off : Offset) (wdata : Word)
  /-- SH, a 16-bit image write (R165). -/
  | sh (off : Offset) (wdata : Word)
  /-- SW, a 32-bit image write (R166). -/
  | sw (off : Offset) (wdata : Word)
  deriving DecidableEq, Repr

end Sys2Proof
end

