-- ==== Sys2Proof/WellFormed.lean ====
section
/-! DEFINITION. Which instructions have a word of their own: a 16-bit or 32-bit image access needs an OFFSET that is a
multiple of its size (20_memory.md R58, 30_encoding.md R85). Every other operand is as wide as its field. -/

namespace Sys2Proof

/-- The instruction has an encoding (30_encoding.md R85). -/
def Instr.wf : Instr → Bool
  | .lh off => off.toNat % 2 == 0
  | .lw off => off.toNat % 4 == 0
  | .sh off _ => off.toNat % 2 == 0
  | .sw off _ => off.toNat % 4 == 0
  | .nop | .init | .step | .run | .patch
  | .rdCmd | .wrCmd _ | .rdStatus | .wrStatus _ | .rdPoly | .wrPoly _ | .rdLen | .wrLen _
  | .rdPtr | .wrPtr _ | .rdAcc | .wrAcc _ | .rdResult | .wrResult _ | .rdSeed | .wrSeed _
  | .rdRsvd _ | .wrRsvd _ _ | .lb _ | .sb _ _ => true

end Sys2Proof
end

