-- ==== Sys2Proof/Decode.lean ====
section
/-! DEFINITION. Decoding and encoding (30_encoding.md). A port transaction is a request: a 32-bit access descriptor and a
32-bit wdata (R81). A command is the 32-bit word written to CMD (R80). Both decoders are total and reject by name.
After them: the encoder, the descriptor map with its matches and masks, the host's program notation (R88, R89), and the
numbering of spec/opcode_table.json. -/

namespace Sys2Proof

/-- A request on the slave port (20_memory.md R50): the access descriptor, and the wdata that a write carries. -/
structure Request where
  desc : Word
  wdata : Word
  deriving DecidableEq, Repr

/-! ## The command word (R80, R83, R84) -/

/-- The five commands of the CMD opcode map (R83). -/
inductive Command where
  | nop
  | init
  | step
  | run
  | patch
  deriving DecidableEq, Repr

/-- Why a command word is reserved (R84). -/
inductive CommandReject where
  /-- RSVD, bits 31:4, is not 0; looked at before OP (R126). -/
  | reservedBits
  /-- OP, bits 3:0, is in 0x5..0xF. -/
  | reservedOp
  deriving DecidableEq, Repr

/-- The OP field of a command word (R80). -/
def cmdOp (v : Word) : BitVec 4 := v.extractLsb' 0 4

/-- The RSVD field of a command word (R80). -/
def cmdRsvd (v : Word) : BitVec 28 := v.extractLsb' 4 28

/-- The CMD opcode map (R83); every other word is reserved, its reserved bits looked at first (R84, R126). -/
def decodeCommand (v : Word) : Except CommandReject Command :=
  if cmdRsvd v ≠ 0#28 then .error .reservedBits
  else if cmdOp v = 0x0#4 then .ok .nop
  else if cmdOp v = 0x1#4 then .ok .init
  else if cmdOp v = 0x2#4 then .ok .step
  else if cmdOp v = 0x3#4 then .ok .run
  else if cmdOp v = 0x4#4 then .ok .patch
  else .error .reservedOp

/-- The command as an instruction of the opcode table. -/
def Command.toInstr : Command → Instr
  | .nop => .nop
  | .init => .init
  | .step => .step
  | .run => .run
  | .patch => .patch

/-- The command's OP (R83). -/
def Command.op : Command → BitVec 4
  | .nop => 0x0#4
  | .init => 0x1#4
  | .step => 0x2#4
  | .run => 0x3#4
  | .patch => 0x4#4

/-- The command word: RSVD = 0 above OP (R80). -/
def Command.word (c : Command) : Word := 0#28 ++ c.op

/-! ## The access descriptor (R81, R85, R86) -/

/-- The OFFSET field, bits 19:0 (R81). -/
def descOffset (d : Word) : Offset := d.extractLsb' 0 20

/-- The SPACE field, bit 20: true is IMG, false is REG (R81). -/
def descImg (d : Word) : Bool := d.getLsbD 20

/-- The W field, bit 21: true is a write (R81). -/
def descWrite (d : Word) : Bool := d.getLsbD 21

/-- The SIZE field, bits 23:22: 0, 1, 2 are 1, 2, 4 bytes, 3 is reserved (R81). -/
def descSize (d : Word) : BitVec 2 := d.extractLsb' 22 2

/-- The RSVD field, bits 31:24 (R81). -/
def descRsvd (d : Word) : BitVec 8 := d.extractLsb' 24 8

/-- The registers of the REG window by name (10_state.md R36); `rsvd j` is the reserved offset 0x20 + 4j (R35). -/
inductive Reg where
  | cmd
  | status
  | poly
  | len
  | ptr
  | acc
  | result
  | seed
  | rsvd (j : BitVec 3)
  deriving DecidableEq, Repr

/-- Why a descriptor is a bus error: the cases (a) to (f) of R86. -/
inductive BusErrorCase where
  /-- (a) RSVD ≠ 0. -/
  | reservedBits
  /-- (b) SIZE = 3, in either space. -/
  | reservedSize
  /-- (c) SPACE = REG and SIZE ≠ 2. -/
  | regSize
  /-- (d) SPACE = REG and OFFSET mod 4 ≠ 0. -/
  | regMisaligned
  /-- (e) SPACE = REG and OFFSET ≥ 0x40. -/
  | regOutside
  /-- (f) SPACE = IMG and OFFSET mod 2^SIZE ≠ 0. -/
  | imgMisaligned
  deriving DecidableEq, Repr

/-- The register at an aligned offset of the REG window (10_state.md R36). -/
def decodeReg (off : Offset) : Except BusErrorCase Reg :=
  if off.toNat % 4 ≠ 0 then .error .regMisaligned
  else if Config.regWindow ≤ off.toNat then .error .regOutside
  else if off = 0x00#20 then .ok .cmd
  else if off = 0x04#20 then .ok .status
  else if off = 0x08#20 then .ok .poly
  else if off = 0x0C#20 then .ok .len
  else if off = 0x10#20 then .ok .ptr
  else if off = 0x14#20 then .ok .acc
  else if off = 0x18#20 then .ok .result
  else if off = 0x1C#20 then .ok .seed
  else .ok (.rsvd (off.extractLsb' 2 3))

/-- The read transaction of a register (R85). -/
def Reg.readInstr : Reg → Instr
  | .cmd => .rdCmd
  | .status => .rdStatus
  | .poly => .rdPoly
  | .len => .rdLen
  | .ptr => .rdPtr
  | .acc => .rdAcc
  | .result => .rdResult
  | .seed => .rdSeed
  | .rsvd j => .rdRsvd j

/-- The write transaction of a register (R85). -/
def Reg.writeInstr (v : Word) : Reg → Instr
  | .cmd => .wrCmd v
  | .status => .wrStatus v
  | .poly => .wrPoly v
  | .len => .wrLen v
  | .ptr => .wrPtr v
  | .acc => .wrAcc v
  | .result => .wrResult v
  | .seed => .wrSeed v
  | .rsvd j => .wrRsvd j v

/-- The image access of a size code at an offset (R85, R86 (f)). -/
def decodeImg (write : Bool) (size : BitVec 2) (off : Offset) (v : Word) : Except BusErrorCase Instr :=
  if size = 0#2 then .ok (if write then .sb off v else .lb off)
  else if size = 1#2 then
    if off.toNat % 2 = 0 then .ok (if write then .sh off v else .lh off) else .error .imgMisaligned
  else if size = 2#2 then
    if off.toNat % 4 = 0 then .ok (if write then .sw off v else .lw off) else .error .imgMisaligned
  else .error .reservedSize

/-- The access descriptor map (R85): the transaction a request stands for, or the bus-error case of R86. A read ignores
the wdata. -/
def decodeAccess (d v : Word) : Except BusErrorCase Instr :=
  if descRsvd d ≠ 0#8 then .error .reservedBits
  else if descSize d = 3#2 then .error .reservedSize
  else if descImg d then decodeImg (descWrite d) (descSize d) (descOffset d) v
  else if descSize d ≠ 2#2 then .error .regSize
  else
    match decodeReg (descOffset d) with
    | .ok r => .ok (if descWrite d then r.writeInstr v else r.readInstr)
    | .error e => .error e

/-- The instruction of the opcode table whose words are `first` and, for a write, `second`: a command word is a row of the
CMD format, any other word is a descriptor. No word is both: a command word read as a descriptor is a bus error
(R86 (c)). Log entry 3. -/
def decodeWords (first second : Word) : Except BusErrorCase Instr :=
  match decodeCommand first with
  | .ok c => .ok c.toInstr
  | .error _ => decodeAccess first second

/-! ## Encoding -/

/-- A descriptor from its fields, RSVD = 0 (R81). -/
def accessWord (img write : Bool) (size : BitVec 2) (off : Offset) : Word :=
  0#8 ++ size ++ BitVec.ofBool write ++ BitVec.ofBool img ++ off

/-- A register's offset in the REG window (10_state.md R36). -/
def Reg.offset : Reg → Offset
  | .cmd => 0x00#20
  | .status => 0x04#20
  | .poly => 0x08#20
  | .len => 0x0C#20
  | .ptr => 0x10#20
  | .acc => 0x14#20
  | .result => 0x18#20
  | .seed => 0x1C#20
  | .rsvd j => 0#14 ++ 1#1 ++ j ++ 0#2

/-- The descriptor of a 32-bit register read (R81). -/
def regReadWord (r : Reg) : Word := accessWord false false 2#2 r.offset

/-- The descriptor of a 32-bit register write (R81). -/
def regWriteWord (r : Reg) : Word := accessWord false true 2#2 r.offset

/-- The words of an instruction: a command is its command word (R83), a read its descriptor, a write its descriptor and
then its wdata (R81, R85, R88). -/
def encode : Instr → List Word
  | .nop => [Command.nop.word]
  | .init => [Command.init.word]
  | .step => [Command.step.word]
  | .run => [Command.run.word]
  | .patch => [Command.patch.word]
  | .rdCmd => [regReadWord .cmd]
  | .wrCmd v => [regWriteWord .cmd, v]
  | .rdStatus => [regReadWord .status]
  | .wrStatus v => [regWriteWord .status, v]
  | .rdPoly => [regReadWord .poly]
  | .wrPoly v => [regWriteWord .poly, v]
  | .rdLen => [regReadWord .len]
  | .wrLen v => [regWriteWord .len, v]
  | .rdPtr => [regReadWord .ptr]
  | .wrPtr v => [regWriteWord .ptr, v]
  | .rdAcc => [regReadWord .acc]
  | .wrAcc v => [regWriteWord .acc, v]
  | .rdResult => [regReadWord .result]
  | .wrResult v => [regWriteWord .result, v]
  | .rdSeed => [regReadWord .seed]
  | .wrSeed v => [regWriteWord .seed, v]
  | .rdRsvd j => [regReadWord (.rsvd j)]
  | .wrRsvd j v => [regWriteWord (.rsvd j), v]
  | .lb off => [accessWord true false 0#2 off]
  | .lh off => [accessWord true false 1#2 off]
  | .lw off => [accessWord true false 2#2 off]
  | .sb off v => [accessWord true true 0#2 off, v]
  | .sh off v => [accessWord true true 1#2 off, v]
  | .sw off v => [accessWord true true 2#2 off, v]

/-- Decode the words of one instruction: a lone word has the wdata 0, as the opcode table's rows are numbered. -/
def decode : List Word → Option Instr
  | [first] => (decodeWords first 0#32).toOption
  | [first, second] => (decodeWords first second).toOption
  | _ => none

/-! ## The descriptor map as the spec prints it -/

/-- One row of the opcode table: a word matches when it agrees with `pattern` on the bits of `mask`. -/
structure TableRow where
  mnemonic : String
  pattern : Word
  mask : Word
  deriving DecidableEq, Repr

/-- The word matches the row. -/
def TableRow.fits (r : TableRow) (d : Word) : Bool := d &&& r.mask == r.pattern

/-- The rows of the access descriptor map (R85) with the masks of spec/opcode_table.json. -/
def accessRows : List TableRow :=
  [⟨"RD_CMD", 0x00800000#32, 0xFFFFFFFF#32⟩, ⟨"WR_CMD", 0x00A00000#32, 0xFFFFFFFF#32⟩,
   ⟨"RD_STATUS", 0x00800004#32, 0xFFFFFFFF#32⟩, ⟨"WR_STATUS", 0x00A00004#32, 0xFFFFFFFF#32⟩,
   ⟨"RD_POLY", 0x00800008#32, 0xFFFFFFFF#32⟩, ⟨"WR_POLY", 0x00A00008#32, 0xFFFFFFFF#32⟩,
   ⟨"RD_LEN", 0x0080000C#32, 0xFFFFFFFF#32⟩, ⟨"WR_LEN", 0x00A0000C#32, 0xFFFFFFFF#32⟩] ++
  [⟨"RD_PTR", 0x00800010#32, 0xFFFFFFFF#32⟩, ⟨"WR_PTR", 0x00A00010#32, 0xFFFFFFFF#32⟩,
   ⟨"RD_ACC", 0x00800014#32, 0xFFFFFFFF#32⟩, ⟨"WR_ACC", 0x00A00014#32, 0xFFFFFFFF#32⟩,
   ⟨"RD_RESULT", 0x00800018#32, 0xFFFFFFFF#32⟩, ⟨"WR_RESULT", 0x00A00018#32, 0xFFFFFFFF#32⟩,
   ⟨"RD_SEED", 0x0080001C#32, 0xFFFFFFFF#32⟩, ⟨"WR_SEED", 0x00A0001C#32, 0xFFFFFFFF#32⟩] ++
  [⟨"RD_RSVD", 0x00800020#32, 0xFFFFFFE3#32⟩, ⟨"WR_RSVD", 0x00A00020#32, 0xFFFFFFE3#32⟩,
   ⟨"LB", 0x00100000#32, 0xFFF00000#32⟩, ⟨"LH", 0x00500000#32, 0xFFF00001#32⟩,
   ⟨"LW", 0x00900000#32, 0xFFF00003#32⟩, ⟨"SB", 0x00300000#32, 0xFFF00000#32⟩,
   ⟨"SH", 0x00700000#32, 0xFFF00001#32⟩, ⟨"SW", 0x00B00000#32, 0xFFF00003#32⟩]

/-- The instruction's mnemonic in spec/opcode_table.json. -/
def Instr.mnemonic : Instr → String
  | .nop => "NOP"
  | .init => "INIT"
  | .step => "STEP"
  | .run => "RUN"
  | .patch => "PATCH"
  | .rdCmd => "RD_CMD"
  | .wrCmd _ => "WR_CMD"
  | .rdStatus => "RD_STATUS"
  | .wrStatus _ => "WR_STATUS"
  | .rdPoly => "RD_POLY"
  | .wrPoly _ => "WR_POLY"
  | .rdLen => "RD_LEN"
  | .wrLen _ => "WR_LEN"
  | .rdPtr => "RD_PTR"
  | .wrPtr _ => "WR_PTR"
  | .rdAcc => "RD_ACC"
  | .wrAcc _ => "WR_ACC"
  | .rdResult => "RD_RESULT"
  | .wrResult _ => "WR_RESULT"
  | .rdSeed => "RD_SEED"
  | .wrSeed _ => "WR_SEED"
  | .rdRsvd _ => "RD_RSVD"
  | .wrRsvd _ _ => "WR_RSVD"
  | .lb _ => "LB"
  | .lh _ => "LH"
  | .lw _ => "LW"
  | .sb _ _ => "SB"
  | .sh _ _ => "SH"
  | .sw _ _ => "SW"

/-! ## Host programs (R88, R89) -/

/-- Why a list of words is no host program. -/
inductive ProgramReject where
  /-- The last descriptor is a write and its wdata is missing. -/
  | missingWdata
  deriving DecidableEq, Repr

/-- The words of one program line: its descriptor followed, for a write, by its wdata (R88). -/
def Request.words (r : Request) : List Word := if descWrite r.desc then [r.desc, r.wdata] else [r.desc]

/-- The requests that the words of a host program stand for, after the descriptor of a write that still awaits its wdata, if
there is one (R88). -/
def decodeProgramFrom : Option Word → List Word → Except ProgramReject (List Request)
  | none, [] => .ok []
  | some _, [] => .error .missingWdata
  | none, d :: ws =>
    if descWrite d then decodeProgramFrom (some d) ws else (decodeProgramFrom none ws).map (⟨d, 0#32⟩ :: ·)
  | some d, w :: ws => (decodeProgramFrom none ws).map (⟨d, w⟩ :: ·)

/-- The requests that the words of a host program stand for (R88). An undecodable descriptor is a line like any other: it
is the port that answers it with a bus error. -/
def decodeProgram (ws : List Word) : Except ProgramReject (List Request) := decodeProgramFrom none ws

/-- The request that issues a command: a write of its word to CMD (R89). -/
def Command.request (c : Command) : Request := ⟨regWriteWord .cmd, c.word⟩

/-- The pseudo-instructions of R89. -/
inductive Pseudo where
  | nop
  | init
  | step
  | run
  | patch
  | setpoly (v : Word)
  | setlen (v : Word)
  | crc
  deriving DecidableEq, Repr

/-- The expansion of a pseudo-instruction (R89). -/
def Pseudo.expand : Pseudo → List Request
  | .nop => [Command.nop.request]
  | .init => [Command.init.request]
  | .step => [Command.step.request]
  | .run => [Command.run.request]
  | .patch => [Command.patch.request]
  | .setpoly v => [⟨regWriteWord .poly, v⟩]
  | .setlen v => [⟨regWriteWord .len, v⟩]
  | .crc => [Command.init.request, Command.run.request, Command.patch.request]

/-! ## The numbering of spec/opcode_table.json -/

/-- The first 32-bit word of an instruction whose bits are `w`, the bits from `nbits` on being 0. -/
def tableFirst (nbits w : Nat) : Word := BitVec.ofNat 32 (w % 2 ^ nbits)

/-- The second 32-bit word of an instruction whose bits are `w`, the bits from `nbits` on being 0. -/
def tableSecond (nbits w : Nat) : Word := BitVec.ofNat 32 (w % 2 ^ nbits / 2 ^ 32)

/-- The instruction the decoder reads from an instruction's bits as spec/opcode_table.json numbers them. -/
def decodeTableWord (nbits w : Nat) : Option Instr :=
  (decodeWords (tableFirst nbits w) (tableSecond nbits w)).toOption

/-- The port request that makes CRC32E perform the instruction whose bits are `w`: a command word is written to CMD
(R29, R89), a descriptor is itself the request. Log entry 3. -/
def tableRequest (nbits w : Nat) : Request :=
  match decodeCommand (tableFirst nbits w) with
  | .ok c => c.request
  | .error _ => ⟨tableFirst nbits w, tableSecond nbits w⟩

end Sys2Proof
end

