-- ==== Sys2Proof/Machine/State.lean ====
section
/-! DEFINITION. The state of CRC32E (10_state.md R20), the host's events on its port and reset input (20_memory.md R50,
70_reset_and_hazards.md R200), and the state after reset. -/

namespace Sys2Proof.Machine

/-- The image buffer (10_state.md R37): the bytes written since the last reset, as (offset, byte) pairs with the offsets
strictly rising. An offset that is not listed has not been written since reset; what it holds is a free value
(93_implementation_defined.md U1). Log entries 1 and 2. -/
abbrev Memory := List Host.Cell

/-- The port's answer to a transaction (20_memory.md R50). -/
structure Response where
  rdata : Word
  err : Bool
  deriving DecidableEq, Repr

/-- What the host can do to CRC32E (20_memory.md R69, R70). -/
inductive HostEvent where
  /-- A transaction on the slave port. -/
  | access (r : Request)
  /-- The reset input, between two transactions or in place of one it interrupts (R200, 60_exceptions.md R185). -/
  | reset
  deriving DecidableEq, Repr

/-- CRC32E and its port. -/
structure State where
  /-- ACC, the accumulator (R24). -/
  acc : Word
  /-- POLY, the polynomial (R23). -/
  poly : Word
  /-- LEN[20:0], the image length in bytes, slot included (R27). -/
  len : Length
  /-- PTR[20:0], the image offset of the next word (R28). -/
  ptr : Length
  /-- STATUS.PATCHED (R32). -/
  patched : Bool
  /-- STATUS.ERR_CMD (R34). -/
  errCmd : Bool
  /-- STATUS.ERR_LEN (R34). -/
  errLen : Bool
  /-- STATUS.ERR_RANGE (R34). -/
  errRange : Bool
  /-- STATUS.ERR_SEQ (R34). -/
  errSeq : Bool
  /-- IMG, the bytes written since reset (R37). -/
  img : Memory
  /-- The model's own: the number of resets before this one, which numbers the draw of the unwritten bytes. -/
  draw : Nat
  /-- The port: the host's events still to come, the next one first (R55, R216). A finite list is DESIGN CHOICE (log entry 4):
  R69 lets the sequence be infinite, and a state then holds a finite prefix of it, after which the block is idle. -/
  inputs : List HostEvent
  /-- The port: the responses answered so far, the newest first (R216). -/
  responses : List Response
  deriving DecidableEq, Repr

/-- Why the machine stops with a fault: never. "CRC32E never halts, stops or faults on its own" (70_reset_and_hazards.md
R216): its errors are STATUS bits and err = 1 responses, after which it goes on. The type has no constructor. -/
inductive Fault where
  deriving DecidableEq, Repr

/-- Why the model has no next state. -/
inductive Refusal where
  /-- Raised by an arm of `exec` whose instruction has no meaning yet; none is left. Safe: the model stops. -/
  | notModelled (mnemonic : String)
  deriving DecidableEq, Repr

/-- The state after reset (R200): the registers at their reset values, no image byte written. That the draw is number 0 and
that the host has sent and seen nothing is DESIGN CHOICE (log entries 1 and 4). -/
def State.reset : State where
  acc := Config.seed
  poly := Config.polyReset
  len := 0
  ptr := 0
  patched := false
  errCmd := false
  errLen := false
  errRange := false
  errSeq := false
  img := []
  draw := 0
  inputs := []
  responses := []

end Sys2Proof.Machine
end

