-- ==== Sys2Proof/Machine/Flags.lean ====
section
/-! DEFINITION. The STATUS register: its computed bits, its layout, and the setting and clearing of its stored bits
(10_state.md R30 to R34, R40; 60_exceptions.md R180, R181). -/

namespace Sys2Proof.Machine

/-- LENOK: LEN is a multiple of 4, at least 4 and at most IMG_CAP (R33). -/
def State.lenOk (s : State) : Bool :=
  s.len.toNat % 4 == 0 && decide (4 ≤ s.len.toNat) && decide (s.len.toNat ≤ Config.imgCap)

/-- `LEN - 4`, where the checksum slot begins; meant where LENOK holds (R123). -/
def State.slot (s : State) : Nat := s.len.toNat - Config.slotBytes

/-- END: LENOK and PTR = LEN - 4 (R31). -/
def State.atEnd (s : State) : Bool := s.lenOk && s.ptr.toNat == s.slot

/-- What a read of STATUS returns: `{ERR_SEQ, ERR_RANGE, ERR_LEN, ERR_CMD, 0b00000, LENOK, PATCHED, END}`, zero-extended
(R30, 42_bus_access.md R143). -/
def State.statusWord (s : State) : Word :=
  (BitVec.ofBool s.errSeq ++ BitVec.ofBool s.errRange ++ BitVec.ofBool s.errLen ++ BitVec.ofBool s.errCmd ++ 0#5 ++
    BitVec.ofBool s.lenOk ++ BitVec.ofBool s.patched ++ BitVec.ofBool s.atEnd).setWidth 32

/-- `set ERR_CMD` (R180, R181 E1). -/
def State.raiseErrCmd (s : State) : State := { s with errCmd := true }

/-- `set ERR_LEN` (R180, R181 E2). -/
def State.raiseErrLen (s : State) : State := { s with errLen := true }

/-- `set ERR_RANGE` (R180, R181 E3). -/
def State.raiseErrRange (s : State) : State := { s with errRange := true }

/-- `set ERR_SEQ` (R180, R181 E4). -/
def State.raiseErrSeq (s : State) : State := { s with errSeq := true }

/-- INIT clears PATCHED and the four error bits (41_commands.md R121). -/
def State.clearFlags (s : State) : State :=
  { s with patched := false, errCmd := false, errLen := false, errRange := false, errSeq := false }

end Sys2Proof.Machine
end

