-- ==== Sys2Proof/Machine/Operands.lean ====
section
/-! DEFINITION. The operand forms of CRC32E: what a write takes of its wdata, how a narrow read is widened, how bytes make a
word, and the byte reversal (00_scope.md R8, R9; 20_memory.md R53; 30_encoding.md R82). -/

namespace Sys2Proof.Machine

/-- `bswap32(v) = {v[7:0], v[15:8], v[23:16], v[31:24]}` (R8). -/
def bswap32 (v : Word) : Word :=
  v.extractLsb' 0 8 ++ v.extractLsb' 8 8 ++ v.extractLsb' 16 8 ++ v.extractLsb' 24 8

/-- What a LEN write takes of its wdata: `wdata[20:0]` (R82, 42_bus_access.md R148). -/
def lenOperand (v : Word) : Length := v.extractLsb' 0 21

/-- A 21-bit register as it is read: `zext_32` (R82). -/
def zextLength (n : Length) : Word := n.setWidth 32

/-- `MemRead(i, n)`: the n-byte little-endian value at offsets i .. i+n-1, n ≤ 4, zero-extended (R9, R53, R82). The image is
given as what each offset reads as. -/
def memRead (img : Nat → Byte) (i : Nat) : Nat → Word
  | 0 => 0#32
  | n + 1 => (img i).setWidth 32 ||| (memRead img (i + 1) n <<< 8)

end Sys2Proof.Machine
end

