-- ==== Sys2Proof/Machine/Ops.lean ====
section
/-! DEFINITION. The shared operations: the image buffer, the port's answers, the bus error, the reset event, and taking the
host's next event. CRC32E takes no exception and has no return from one (60_exceptions.md R187, R188): what stands in
their place is `State.busError` here and the error bits in Flags.lean. -/

namespace Sys2Proof.Machine

/-! ## The image buffer (10_state.md R37, 20_memory.md R57) -/

/-- The byte written at an offset since reset, if one was. -/
def Memory.lookup (a : Nat) : Memory → Option Byte
  | [] => none
  | c :: m => if c.1 = a then some c.2 else Memory.lookup a m

/-- Write one byte, keeping the offsets strictly rising. -/
def Memory.write (a : Nat) (b : Byte) : Memory → Memory
  | [] => [(a, b)]
  | c :: m =>
    if a < c.1 then (a, b) :: c :: m
    else if a = c.1 then (a, b) :: m
    else c :: Memory.write a b m

/-- The offsets are strictly rising. -/
def Memory.rising : Memory → Bool
  | [] => true
  | [_] => true
  | c :: d :: m => decide (c.1 < d.1) && Memory.rising (d :: m)

/-- The canonical form: offsets strictly rising and below IMG_CAP. Log entry 2. -/
def Memory.wf (m : Memory) : Bool := Memory.rising m && m.all fun c => decide (c.1 < Config.imgCap)

/-- `MemWrite(i, n, v)`: for each k < n, the byte at i+k is v[8k+7:8k] (00_scope.md R9). -/
def Memory.writeBytes (i : Nat) : Nat → Word → Memory → Memory
  | 0, _, m => m
  | n + 1, v, m => Memory.writeBytes (i + 1) n (v >>> 8) (Memory.write i (v.setWidth 8) m)

/-- `IMG[i]`: the byte last written there, and where none was written since reset, the free value of that reset (R37,
93_implementation_defined.md U1). -/
def State.imgByte (s : State) (a : Nat) : Byte :=
  match Memory.lookup a s.img with
  | some b => b
  | none => Config.imgDraw s.draw a

/-- `MemRead(i, n)` on the state's image (00_scope.md R9). -/
def State.memRead (s : State) (i n : Nat) : Word := Sys2Proof.Machine.memRead s.imgByte i n

/-- `MemWrite(i, n, v)` on the state's image (00_scope.md R9). -/
def State.memWrite (s : State) (i n : Nat) (v : Word) : State := { s with img := Memory.writeBytes i n v s.img }

/-! ## The port (20_memory.md R50) -/

/-- End the transaction with a response. -/
def State.answer (s : State) (r : Response) : State := { s with responses := r :: s.responses }

/-- A read answers its value and err = 0 (42_bus_access.md R140, R160). -/
def State.answerRead (s : State) (v : Word) : State := s.answer ⟨v, false⟩

/-- A write answers rdata = 0 and err = 0 (42_bus_access.md, preamble; R140, R160). -/
def State.answerWrite (s : State) : State := s.answer ⟨0#32, false⟩

/-- `raise BusError`: the response `{rdata = 0, err = 1}` and no other change (60_exceptions.md R183). -/
def State.busError (s : State) : State := s.answer ⟨0#32, true⟩

/-! ## The host's events -/

/-- The reset event (70_reset_and_hazards.md R200): every register at its reset value and every image byte drawn anew. The
host's side of the port, what it will send and what it has seen, is not CRC32E's and stays. Log entry 5. -/
def State.resetInput (s : State) : State :=
  { State.reset with draw := s.draw + 1, inputs := s.inputs, responses := s.responses }

/-- The state once the host's next event has been taken from the port. -/
def State.dropInput (s : State) : State := { s with inputs := s.inputs.tail }

/-- The host issues one more transaction, before all it would have done. -/
def State.pushRequest (s : State) (r : Request) : State := { s with inputs := .access r :: s.inputs }

end Sys2Proof.Machine
end

