-- ==== Sys2Proof/Machine/Image.lean ====
section
/-! DEFINITION. The image window (42_bus_access.md R160 to R166). An access whose offset is not a multiple of its size raises
BusError and is not performed (20_memory.md R58). -/

namespace Sys2Proof.Machine

/-- An image read of `n` bytes (R160). -/
def imgLoad (n : Nat) (off : Offset) (s : State) : State :=
  if off.toNat % n = 0 then s.answerRead (s.memRead off.toNat n) else s.busError

/-- An image write of the low `n` bytes of wdata (R160, 30_encoding.md R82). -/
def imgStore (n : Nat) (off : Offset) (v : Word) (s : State) : State :=
  if off.toNat % n = 0 then (s.memWrite off.toNat n v).answerWrite else s.busError

/-- LB (R161). -/
def execLb (off : Offset) (s : State) : Host.Outcome State Fault Refusal := .next (imgLoad 1 off s)

/-- LH (R162). -/
def execLh (off : Offset) (s : State) : Host.Outcome State Fault Refusal := .next (imgLoad 2 off s)

/-- LW (R163). -/
def execLw (off : Offset) (s : State) : Host.Outcome State Fault Refusal := .next (imgLoad 4 off s)

/-- SB (R164). -/
def execSb (off : Offset) (v : Word) (s : State) : Host.Outcome State Fault Refusal := .next (imgStore 1 off v s)

/-- SH (R165). -/
def execSh (off : Offset) (v : Word) (s : State) : Host.Outcome State Fault Refusal := .next (imgStore 2 off v s)

/-- SW (R166). -/
def execSw (off : Offset) (v : Word) (s : State) : Host.Outcome State Fault Refusal := .next (imgStore 4 off v s)

end Sys2Proof.Machine
end

