-- ==== Sys2Proof/Machine/Crc.lean ====
section
/-! DEFINITION. The CRC arithmetic (40_crc_arithmetic.md): the round, the word update, the image CRC, the byte-serial CRC it
is compared with, and the word step. -/

namespace Sys2Proof.Machine

/-- `crc_round(a, p)`: shift left by one, and XOR the polynomial in when bit 31 was set (R100). -/
def crcRound (a p : Word) : Word := if a.getLsbD 31 then (a <<< 1) ^^^ p else a <<< 1

/-- `n` rounds. -/
def crcRounds : Nat → Word → Word → Word
  | 0, a, _ => a
  | n + 1, a, p => crcRounds n (crcRound a p) p

/-- `word_update(a, w, p)`: XOR the word in, then 32 rounds (R102). -/
def wordUpdate (a w p : Word) : Word := crcRounds Config.rounds (a ^^^ w) p

/-- The word update over the `n` words at offsets i, i+4, … (the loop of R105 and of R124). -/
def crcWords (img : Nat → Byte) (p : Word) : Nat → Nat → Word → Word
  | 0, _, a => a
  | n + 1, i, a => crcWords img p n (i + Config.wordBytes) (wordUpdate a (memRead img i Config.wordBytes) p)

/-- `image_crc(IMG, L, p)`: from SEED over the L/4 - 1 words before the slot (R105). -/
def imageCrc (img : Nat → Byte) (L : Nat) (p : Word) : Word :=
  crcWords img p (L / Config.wordBytes - 1) 0 Config.seed

/-- `bytecrc(s, init, p)`: for each byte, XOR it into the top byte, then 8 rounds (R108). -/
def byteCrc : List Byte → Word → Word → Word
  | [], a, _ => a
  | b :: bs, a, p => byteCrc bs (crcRounds 8 (a ^^^ (b.setWidth 32 <<< 24)) p) p

/-- The bytes of `n` words from offset i, the bytes of each word reversed: the stream r of R108. -/
def reversedWords (img : Nat → Byte) : Nat → Nat → List Byte
  | 0, _ => []
  | n + 1, i => img (i + 3) :: img (i + 2) :: img (i + 1) :: img i :: reversedWords img n (i + 4)

/-- The word step (R103): the word at PTR into ACC under POLY as it stands, PTR on by 4, PATCHED cleared. -/
def State.wordStep (s : State) : State :=
  { s with
    acc := wordUpdate s.acc (s.memRead s.ptr.toNat Config.wordBytes) s.poly
    ptr := s.ptr + 4#21
    patched := false }

end Sys2Proof.Machine
end

