-- ==== Sys2Proof/Machine/Commands.lean ====
section
/-! DEFINITION. The commands (41_commands.md). A command is performed by a write to CMD, which answers err = 0 whatever the
command does (R126, 42_bus_access.md R142); the meanings below end with that answer. -/

namespace Sys2Proof.Machine

/-- NOP: no state change (R120). -/
def cmdNop (s : State) : State := s

/-- INIT: ACC from SEED, PTR to 0, PATCHED and the error bits cleared (R121). -/
def cmdInit (s : State) : State := { s with acc := Config.seed, ptr := 0#21 }.clearFlags

/-- STEP: one word, after the checks of R123 (R122). -/
def cmdStep (s : State) : State :=
  if !s.lenOk then s.raiseErrLen
  else if s.ptr.toNat + Config.wordBytes > s.slot then s.raiseErrRange
  else s.wordStep

/-- The loop of RUN: word steps while PTR < LEN - 4, at most `fuel` of them (R124). -/
def runLoop : Nat → State → State
  | 0, s => s
  | fuel + 1, s => if s.ptr.toNat < s.slot then runLoop fuel s.wordStep else s

/-- RUN: every remaining word, after the checks of R123 (R124). PTR grows by 4 with each word step and stays below LEN, so
the loop ends by its own test within LEN iterations (R128). -/
def cmdRun (s : State) : State :=
  if !s.lenOk then s.raiseErrLen
  else if s.ptr.toNat > s.slot then s.raiseErrRange
  else runLoop s.len.toNat s

/-- A PATCH whose checks pass: the byte-reversed accumulator into the slot, PATCHED set (R125, 20_memory.md R54). -/
def State.patchSlot (s : State) : State :=
  { s.memWrite s.slot Config.slotBytes (bswap32 s.acc) with patched := true }

/-- PATCH, after the checks of R123 (R125). -/
def cmdPatch (s : State) : State :=
  if !s.lenOk then s.raiseErrLen
  else if s.ptr.toNat ≠ s.slot then s.raiseErrSeq
  else s.patchSlot

/-- A reserved command word (R126). -/
def cmdReserved (s : State) : State := s.raiseErrCmd

/-- Decode the word written to CMD and perform the command it selects (R142). -/
def issueCommand (v : Word) (s : State) : State :=
  match decodeCommand v with
  | .ok .nop => cmdNop s
  | .ok .init => cmdInit s
  | .ok .step => cmdStep s
  | .ok .run => cmdRun s
  | .ok .patch => cmdPatch s
  | .error _ => cmdReserved s

/-- NOP (R120). -/
def execNop (s : State) : Host.Outcome State Fault Refusal := .next (cmdNop s).answerWrite

/-- INIT (R121). -/
def execInit (s : State) : Host.Outcome State Fault Refusal := .next (cmdInit s).answerWrite

/-- STEP (R122). -/
def execStep (s : State) : Host.Outcome State Fault Refusal := .next (cmdStep s).answerWrite

/-- RUN (R124). -/
def execRun (s : State) : Host.Outcome State Fault Refusal := .next (cmdRun s).answerWrite

/-- PATCH (R125). -/
def execPatch (s : State) : Host.Outcome State Fault Refusal := .next (cmdPatch s).answerWrite

end Sys2Proof.Machine
end

