-- ==== Sys2Proof/Machine/Registers.lean ====
section
/-! DEFINITION. The register window (10_state.md R36; 42_bus_access.md R140 to R158). All reads go through `regRead`, all
writes through `regWrite`: there the hardwired, computed and read-only registers behave as the spec says. -/

namespace Sys2Proof.Machine

/-- What a 32-bit read of a register returns (R36). -/
def regRead (s : State) : Reg → Word
  | .cmd => 0#32
  | .status => s.statusWord
  | .poly => s.poly
  | .len => zextLength s.len
  | .ptr => zextLength s.ptr
  | .acc => s.acc
  | .result => bswap32 s.acc
  | .seed => Config.seed
  | .rsvd _ => 0#32

/-- What a 32-bit write of a register does: CMD issues a command, POLY and LEN store, all others ignore (R36). -/
def regWrite (s : State) (v : Word) : Reg → State
  | .cmd => issueCommand v s
  | .status => s
  | .poly => { s with poly := v }
  | .len => { s with len := lenOperand v }
  | .ptr => s
  | .acc => s
  | .result => s
  | .seed => s
  | .rsvd _ => s

/-- A register read transaction: the value, err = 0, no side effect (R140, 20_memory.md R62). -/
def readReg (r : Reg) (s : State) : State := s.answerRead (regRead s r)

/-- A register write transaction: the register's write, then err = 0 (R140). -/
def writeReg (r : Reg) (v : Word) (s : State) : State := (regWrite s v r).answerWrite

/-- RD_CMD (R141). -/
def execRdCmd (s : State) : Host.Outcome State Fault Refusal := .next (readReg .cmd s)

/-- WR_CMD (R142). -/
def execWrCmd (v : Word) (s : State) : Host.Outcome State Fault Refusal := .next (writeReg .cmd v s)

/-- RD_STATUS (R143). -/
def execRdStatus (s : State) : Host.Outcome State Fault Refusal := .next (readReg .status s)

/-- WR_STATUS (R144). -/
def execWrStatus (v : Word) (s : State) : Host.Outcome State Fault Refusal := .next (writeReg .status v s)

/-- RD_POLY (R145). -/
def execRdPoly (s : State) : Host.Outcome State Fault Refusal := .next (readReg .poly s)

/-- WR_POLY (R146). -/
def execWrPoly (v : Word) (s : State) : Host.Outcome State Fault Refusal := .next (writeReg .poly v s)

/-- RD_LEN (R147). -/
def execRdLen (s : State) : Host.Outcome State Fault Refusal := .next (readReg .len s)

/-- WR_LEN (R148). -/
def execWrLen (v : Word) (s : State) : Host.Outcome State Fault Refusal := .next (writeReg .len v s)

/-- RD_PTR (R149). -/
def execRdPtr (s : State) : Host.Outcome State Fault Refusal := .next (readReg .ptr s)

/-- WR_PTR (R150). -/
def execWrPtr (v : Word) (s : State) : Host.Outcome State Fault Refusal := .next (writeReg .ptr v s)

/-- RD_ACC (R151). -/
def execRdAcc (s : State) : Host.Outcome State Fault Refusal := .next (readReg .acc s)

/-- WR_ACC (R152). -/
def execWrAcc (v : Word) (s : State) : Host.Outcome State Fault Refusal := .next (writeReg .acc v s)

/-- RD_RESULT (R153). -/
def execRdResult (s : State) : Host.Outcome State Fault Refusal := .next (readReg .result s)

/-- WR_RESULT (R154). -/
def execWrResult (v : Word) (s : State) : Host.Outcome State Fault Refusal := .next (writeReg .result v s)

/-- RD_SEED (R155). -/
def execRdSeed (s : State) : Host.Outcome State Fault Refusal := .next (readReg .seed s)

/-- WR_SEED (R156). -/
def execWrSeed (v : Word) (s : State) : Host.Outcome State Fault Refusal := .next (writeReg .seed v s)

/-- RD_RSVD (R157). -/
def execRdRsvd (j : BitVec 3) (s : State) : Host.Outcome State Fault Refusal := .next (readReg (.rsvd j) s)

/-- WR_RSVD (R158). -/
def execWrRsvd (j : BitVec 3) (v : Word) (s : State) : Host.Outcome State Fault Refusal :=
  .next (writeReg (.rsvd j) v s)

end Sys2Proof.Machine
end

