-- ==== Sys2Proof/Machine/Dispatch.lean ====
section
/-! DEFINITION. One arm per constructor of Instr, each a call of that instruction's meaning. -/

namespace Sys2Proof.Machine

def exec (i : Instr) (s : State) : Host.Outcome State Fault Refusal :=
  match i with
  | .nop => Sys2Proof.Machine.execNop s
  | .init => Sys2Proof.Machine.execInit s
  | .step => Sys2Proof.Machine.execStep s
  | .run => Sys2Proof.Machine.execRun s
  | .patch => Sys2Proof.Machine.execPatch s
  | .rdCmd => Sys2Proof.Machine.execRdCmd s
  | .wrCmd v => Sys2Proof.Machine.execWrCmd v s
  | .rdStatus => Sys2Proof.Machine.execRdStatus s
  | .wrStatus v => Sys2Proof.Machine.execWrStatus v s
  | .rdPoly => Sys2Proof.Machine.execRdPoly s
  | .wrPoly v => Sys2Proof.Machine.execWrPoly v s
  | .rdLen => Sys2Proof.Machine.execRdLen s
  | .wrLen v => Sys2Proof.Machine.execWrLen v s
  | .rdPtr => Sys2Proof.Machine.execRdPtr s
  | .wrPtr v => Sys2Proof.Machine.execWrPtr v s
  | .rdAcc => Sys2Proof.Machine.execRdAcc s
  | .wrAcc v => Sys2Proof.Machine.execWrAcc v s
  | .rdResult => Sys2Proof.Machine.execRdResult s
  | .wrResult v => Sys2Proof.Machine.execWrResult v s
  | .rdSeed => Sys2Proof.Machine.execRdSeed s
  | .wrSeed v => Sys2Proof.Machine.execWrSeed v s
  | .rdRsvd j => Sys2Proof.Machine.execRdRsvd j s
  | .wrRsvd j v => Sys2Proof.Machine.execWrRsvd j v s
  | .lb off => Sys2Proof.Machine.execLb off s
  | .lh off => Sys2Proof.Machine.execLh off s
  | .lw off => Sys2Proof.Machine.execLw off s
  | .sb off v => Sys2Proof.Machine.execSb off v s
  | .sh off v => Sys2Proof.Machine.execSh off v s
  | .sw off v => Sys2Proof.Machine.execSw off v s

end Sys2Proof.Machine
end

