-- ==== Sys2Proof/Machine/Step.lean ====
section
/-! DEFINITION. One step of CRC32E: the host's next event, whole (20_memory.md R55, R56, R69). -/

namespace Sys2Proof.Machine

/-- Perform the host's next event. A transaction is decoded first, and a bus error ends it there (60_exceptions.md R184);
with no event the block is idle and its state is kept (60_exceptions.md R195). -/
def step (s : State) : Host.Outcome State Fault Refusal :=
  match s.inputs with
  | [] => .next s
  | .reset :: _ => .next s.dropInput.resetInput
  | .access r :: _ =>
    match decodeAccess r.desc r.wdata with
    | .ok i => exec i s.dropInput
    | .error _ => .next s.dropInput.busError

/-- `s` with the instruction whose bits are `w`, as spec/opcode_table.json numbers them, as the host's next transaction.
CRC32E fetches nothing (10_state.md R22): its next instruction is what the host sends next. Log entry 3. -/
def State.withFetchWord (s : State) (nbits w : Nat) : State := s.pushRequest (tableRequest nbits w)

end Sys2Proof.Machine
end

