-- ==== Sys2Proof/Machine/HostProgram.lean ====
section
/-! DEFINITION. Host programs (30_encoding.md R88 to R91): the lines of the host's assembly syntax, how their text is read, the
transactions they stand for, and the polling loop. All of it is the host's: CRC32E sees the transactions alone. -/

namespace Sys2Proof.Machine

/-! ## Lines and their transactions (R88, R89) -/

/-- The width of an image access. -/
inductive AccessSize where
  | byte
  | half
  | word
  deriving DecidableEq, Repr

/-- The SIZE code of a width (R81). -/
def AccessSize.code : AccessSize → BitVec 2
  | .byte => 0#2
  | .half => 1#2
  | .word => 2#2

/-- One item of a host program: a line of R88, a pseudo-instruction of R89, or the loop of R90. -/
inductive HostOp where
  /-- `rd REG.<NAME>` -/
  | rd (r : Reg)
  /-- `wr REG.<NAME>, <imm32>` -/
  | wr (r : Reg) (v : Word)
  /-- `lb`, `lh`, `lw` of `IMG[<off>]` -/
  | load (size : AccessSize) (off : Offset)
  /-- `sb`, `sh`, `sw` of `IMG[<off>]`, `<imm>` -/
  | store (size : AccessSize) (off : Offset) (v : Word)
  /-- a pseudo-instruction -/
  | pseudo (p : Pseudo)
  /-- `until STATUS.END: step` -/
  | untilEnd
  deriving DecidableEq, Repr

/-- The read of STATUS that the polling loop repeats (R90). -/
def readStatus : Request := ⟨regReadWord .status, 0#32⟩

/-- The transactions of an item that is no loop; of the loop, the read it begins with. -/
def HostOp.requests : HostOp → List Request
  | .rd r => [⟨regReadWord r, 0#32⟩]
  | .wr r v => [⟨regWriteWord r, v⟩]
  | .load size off => [⟨accessWord true false size.code off, 0#32⟩]
  | .store size off v => [⟨accessWord true true size.code off, v⟩]
  | .pseudo p => p.expand
  | .untilEnd => [readStatus]

/-! ## Running a host program -/

/-- The host issues a transaction and awaits its response (20_memory.md R56). -/
def transact (r : Request) (s : State) : Option State :=
  match step (s.pushRequest r) with
  | .next t => some t
  | .fault _ => none
  | .refused _ => none

/-- Transactions one after another (20_memory.md R55). -/
def transactAll : List Request → State → Option State
  | [], s => some s
  | r :: rs, s => (transact r s).bind (transactAll rs)

/-- Bit 0 of the value the host read last. -/
def lastReadEnd (s : State) : Bool :=
  match s.responses with
  | [] => false
  | a :: _ => a.rdata.getLsbD 0

/-- `until STATUS.END: step`: read STATUS, and STEP and begin again where bit 0 of the value read is 0 (R90); none where the loop
has not stopped after `fuel` reads. -/
def untilEnd : Nat → State → Option State
  | 0, _ => none
  | fuel + 1, s =>
    (transact readStatus s).bind fun t =>
      if lastReadEnd t then some t else (transact Command.step.request t).bind (untilEnd fuel)

/-- A host program, with at most `fuel` reads of STATUS in each of its loops. -/
def runProgram (fuel : Nat) : List HostOp → State → Option State
  | [], s => some s
  | .untilEnd :: ops, s => (untilEnd fuel s).bind (runProgram fuel ops)
  | op :: ops, s => (transactAll op.requests s).bind (runProgram fuel ops)

/-! ## Reading the text of a line (R88) -/

/-- Why a line is rejected. -/
inductive LineReject where
  /-- The words of the line have no form of R88, R89 or R90. -/
  | unknownForm
  /-- A register name, an offset or an immediate that cannot be read or does not fit. -/
  | badOperand
  deriving DecidableEq, Repr

/-- A digit's value. -/
def digitValue (c : Char) : Option Nat :=
  if '0' ≤ c ∧ c ≤ '9' then some (c.toNat - '0'.toNat)
  else if 'a' ≤ c ∧ c ≤ 'f' then some (c.toNat - 'a'.toNat + 10)
  else if 'A' ≤ c ∧ c ≤ 'F' then some (c.toNat - 'A'.toNat + 10)
  else none

/-- Digits in a base, after the value of those before them. -/
def parseDigits (base : Nat) : Nat → List Char → Option Nat
  | n, [] => some n
  | n, c :: cs =>
    match digitValue c with
    | some d => if d < base then parseDigits base (n * base + d) cs else none
    | none => none

/-- "hexadecimal with a `0x` prefix, or decimal" (R88). -/
def parseLiteral : List Char → Option Nat
  | [] => none
  | '0' :: 'x' :: c :: cs => parseDigits 16 0 (c :: cs)
  | c :: cs => parseDigits 10 0 (c :: cs)

/-- A literal of at most `w` bits. -/
def parseBits (w : Nat) (cs : List Char) : Option (BitVec w) :=
  match parseLiteral cs with
  | some n => if n < 2 ^ w then some (BitVec.ofNat w n) else none
  | none => none

/-- `RSVD<off>`: a reserved offset of the window (10_state.md R35). -/
def parseReserved (cs : List Char) : Option Reg :=
  match parseLiteral cs with
  | some n => if n % 4 = 0 ∧ 0x20 ≤ n ∧ n < 0x40 then some (.rsvd (BitVec.ofNat 3 ((n - 0x20) / 4))) else none
  | none => none

/-- `REG.<NAME>` (R88). -/
def parseReg (cs : List Char) : Option Reg :=
  if cs = "REG.CMD".toList then some .cmd
  else if cs = "REG.STATUS".toList then some .status
  else if cs = "REG.POLY".toList then some .poly
  else if cs = "REG.LEN".toList then some .len
  else if cs = "REG.PTR".toList then some .ptr
  else if cs = "REG.ACC".toList then some .acc
  else if cs = "REG.RESULT".toList then some .result
  else if cs = "REG.SEED".toList then some .seed
  else if cs.take 8 = "REG.RSVD".toList then parseReserved (cs.drop 8)
  else none

/-- `IMG[<off>]` (R88). -/
def parseOffset (cs : List Char) : Option Offset :=
  if cs.take 4 = "IMG[".toList ∧ cs.getLast? = some ']' then parseBits 20 (cs.drop 4).dropLast else none

/-- The words of a line, a comma being a word of its own; a `;` begins a comment (R88). The first argument is the word read so
far, its last character first. -/
def splitWords : List Char → List Char → List (List Char)
  | cur, [] => if cur = [] then [] else [cur.reverse]
  | cur, c :: cs =>
    if c = ';' then if cur = [] then [] else [cur.reverse]
    else if c = ' ' ∨ c = '\t' then if cur = [] then splitWords [] cs else cur.reverse :: splitWords [] cs
    else if c = ',' then
      if cur = [] then [','] :: splitWords [] cs else cur.reverse :: [','] :: splitWords [] cs
    else splitWords (c :: cur) cs

/-- The item that read operands make, or the rejection of the operand that could not be read. -/
def operandOr (o : Option HostOp) : Except LineReject (List HostOp) :=
  match o with
  | some op => .ok [op]
  | none => .error .badOperand

/-- A word alone on its line: a pseudo-instruction without an operand (R89). -/
def parseBareWord (op : List Char) : Except LineReject (List HostOp) :=
  if op = "nop".toList then .ok [.pseudo .nop]
  else if op = "init".toList then .ok [.pseudo .init]
  else if op = "step".toList then .ok [.pseudo .step]
  else if op = "run".toList then .ok [.pseudo .run]
  else if op = "patch".toList then .ok [.pseudo .patch]
  else if op = "crc".toList then .ok [.pseudo .crc]
  else .error .unknownForm

/-- Two words: a read, or a pseudo-instruction with its operand (R88, R89). -/
def parseTwoWords (op a : List Char) : Except LineReject (List HostOp) :=
  if op = "rd".toList then operandOr ((parseReg a).map .rd)
  else if op = "lb".toList then operandOr ((parseOffset a).map (.load .byte))
  else if op = "lh".toList then operandOr ((parseOffset a).map (.load .half))
  else if op = "lw".toList then operandOr ((parseOffset a).map (.load .word))
  else if op = "setpoly".toList then operandOr ((parseBits 32 a).map fun v => .pseudo (.setpoly v))
  else if op = "setlen".toList then operandOr ((parseBits 32 a).map fun v => .pseudo (.setlen v))
  else .error .unknownForm

/-- A write and its immediate (R88). An immediate of any width is read as the wdata; SB and SH take its low bits (R82, and R164's
example). Log entry 7. -/
def parseWrite (op a imm : List Char) : Except LineReject (List HostOp) :=
  match parseBits 32 imm with
  | none => .error .badOperand
  | some v =>
    if op = "wr".toList then operandOr ((parseReg a).map fun r => .wr r v)
    else if op = "sb".toList then operandOr ((parseOffset a).map fun off => .store .byte off v)
    else if op = "sh".toList then operandOr ((parseOffset a).map fun off => .store .half off v)
    else if op = "sw".toList then operandOr ((parseOffset a).map fun off => .store .word off v)
    else .error .unknownForm

/-- The items of a line: none where it is blank or a comment (R88, R89, R90). -/
def parseLine (line : List Char) : Except LineReject (List HostOp) :=
  match splitWords [] line with
  | [] => .ok []
  | [op] => parseBareWord op
  | [op, a] => parseTwoWords op a
  | [u, e, op] =>
    if u = "until".toList ∧ e = "STATUS.END:".toList ∧ op = "step".toList then .ok [.untilEnd] else .error .unknownForm
  | [op, a, comma, imm] => if comma = [','] then parseWrite op a imm else .error .unknownForm
  | _ => .error .unknownForm

/-- The lines of a text. The first argument is the line read so far, its last character first. -/
def splitLines : List Char → List Char → List (List Char)
  | cur, [] => [cur.reverse]
  | cur, c :: cs => if c = '\n' then cur.reverse :: splitLines [] cs else splitLines (c :: cur) cs

/-- The items of lines, one after another. -/
def parseLines : List (List Char) → Except LineReject (List HostOp)
  | [] => .ok []
  | l :: ls =>
    match parseLine l with
    | .error e => .error e
    | .ok ops => (parseLines ls).map (ops ++ ·)

/-- A CRC32E program from its text: "a sequence of host transactions, one per line" (R88). -/
def parseProgram (text : String) : Except LineReject (List HostOp) := parseLines (splitLines [] text.toList)

end Sys2Proof.Machine
end

