-- ==== Sys2Proof/Safety.lean ====
section
/-! DEFINITION. The terms in which claims about runs of CRC32E are stated. -/

namespace Sys2Proof.Machine

/-- The invariants (a) and (b) of 10_state.md R38, and the canonical form of the image: PTR is a multiple of 4 and at most
IMG_CAP - 4. Rule R38 (d) needs no premise, because STATUS is computed. -/
def State.Inv (s : State) : Prop :=
  s.ptr.toNat % 4 = 0 ∧ s.ptr.toNat ≤ Config.imgCap - 4 ∧ Memory.wf s.img = true

/-- No error bit of STATUS is set (R34). -/
def State.errorFree (s : State) : Bool := !(s.errCmd || s.errLen || s.errRange || s.errSeq)

/-- Perform instructions one after another, stopping at the first that has no next state. -/
def execAll : List Instr → State → Host.Outcome State Fault Refusal
  | [], s => .next s
  | i :: is, s =>
    match exec i s with
    | .next t => execAll is t
    | .fault f => .fault f
    | .refused r => .refused r

/-- The instruction that the host's next event stands for: none where there is no event, where it is a reset, and where the
descriptor is a bus error. -/
def State.nextInstr (s : State) : Option Instr :=
  match s.inputs with
  | .access r :: _ => (decodeAccess r.desc r.wdata).toOption
  | .reset :: _ => none
  | [] => none

/-- The two states differ at most in the image bytes at offset `a` and above (20_memory.md R52). -/
def State.agreeBelow (a : Nat) (s t : State) : Prop :=
  s.acc = t.acc ∧ s.poly = t.poly ∧ s.len = t.len ∧ s.ptr = t.ptr ∧ s.patched = t.patched ∧ s.errCmd = t.errCmd ∧
  s.errLen = t.errLen ∧ s.errRange = t.errRange ∧ s.errSeq = t.errSeq ∧ s.responses = t.responses ∧
  ∀ b, b < a → s.imgByte b = t.imgByte b

end Sys2Proof.Machine
end

