-- ==== Sys2Proof/Certificates/Slice0/Obligations.lean ====
section
/-! DEFINITION. The statements for the provers. Each docstring names the rule of spec/ it formalises. A statement about
the image reads it byte by byte through `State.imgByte`, so that it holds whatever the unwritten bytes are. -/

open Sys2Proof Sys2Proof.Machine

/-! ## Encoding (30_encoding.md) -/

/-- Decoding the words of an encodable instruction gives it back, every operand at every value (30_encoding.md R80 to R85). -/
def Obligations.DecodeOfEncodeIsTheInstruction : Prop :=
  ∀ i : Instr, i.wf = true → decode (encode i) = some i

/-- A descriptor that decodes is rebuilt by the encoder bit for bit, and a write keeps its wdata whole (R81, R82, R85). -/
def Obligations.EncodeOfDecodeIsTheDescriptor : Prop :=
  ∀ (d v : Word) (i : Instr), decodeAccess d v = .ok i →
    i.wf = true ∧ encode i = if d.getLsbD 21 then [d, v] else [d]

/-- R85: the decoder decides every descriptor as the printed map does, and the map's rows do not overlap. -/
def Obligations.DescriptorMapDecidesTheTransaction : Prop :=
  (∀ (d v : Word) (i : Instr), decodeAccess d v = .ok i →
    ∃ r ∈ accessRows, r.fits d = true ∧ r.mnemonic = i.mnemonic) ∧
  (∀ d v : Word, ∀ r ∈ accessRows, r.fits d = true → ∃ i, decodeAccess d v = .ok i ∧ i.mnemonic = r.mnemonic) ∧
  (∀ d : Word, ∀ r ∈ accessRows, ∀ q ∈ accessRows, r.fits d = true → q.fits d = true → r = q)

/-- R86: the descriptors that raise BusError are exactly the cases (a) to (f). -/
def Obligations.BusErrorDescriptorsAreExactlyTheSixCases : Prop :=
  ∀ d v : Word, (∃ e, decodeAccess d v = .error e) ↔
    (d.extractLsb' 24 8 ≠ 0#8 ∨
     d.extractLsb' 22 2 = 3#2 ∨
     (d.getLsbD 20 = false ∧ d.extractLsb' 22 2 ≠ 2#2) ∨
     (d.getLsbD 20 = false ∧ (d.extractLsb' 0 20).toNat % 4 ≠ 0) ∨
     (d.getLsbD 20 = false ∧ 0x40 ≤ (d.extractLsb' 0 20).toNat) ∨
     (d.getLsbD 20 = true ∧ (d.extractLsb' 0 20).toNat % 2 ^ (d.extractLsb' 22 2).toNat ≠ 0))

/-- R83: five command words select a command, every other word is reserved. -/
def Obligations.CommandWordsAreExactlyFive : Prop :=
  ∀ v : Word,
    (decodeCommand v = .ok .nop ↔ v = 0x00000000#32) ∧
    (decodeCommand v = .ok .init ↔ v = 0x00000001#32) ∧
    (decodeCommand v = .ok .step ↔ v = 0x00000002#32) ∧
    (decodeCommand v = .ok .run ↔ v = 0x00000003#32) ∧
    (decodeCommand v = .ok .patch ↔ v = 0x00000004#32) ∧
    ((∃ e, decodeCommand v = .error e) ↔ (v.extractLsb' 4 28 ≠ 0#28 ∨ 5 ≤ (v.extractLsb' 0 4).toNat))

/-- Words written out from R81, R83 and R85 decode to the instructions they stand for. -/
def Obligations.SampleWordsDecodeAsTheSpecPrints : Prop :=
  decode [0x00000003#32] = some .run ∧
  decode [0x00A00000#32, 0x00000011#32] = some (.wrCmd 0x11#32) ∧
  decode [0x00800018#32] = some .rdResult ∧
  decode [0x00A0003C#32, 7#32] = some (.wrRsvd 7#3 7#32) ∧
  decode [0x001FFFFF#32] = some (.lb 0xFFFFF#20) ∧
  decode [0x00B00010#32, 0x44332211#32] = some (.sw 0x10#20 0x44332211#32) ∧
  decode [0x00900002#32] = none

/-- R88: the words of a host program, each line its descriptor and for a write its wdata, read back as the same lines. -/
def Obligations.HostProgramWordsReadBack : Prop :=
  ∀ rs : List Request, (∀ r ∈ rs, r.desc.getLsbD 21 = false → r.wdata = 0#32) →
    decodeProgram (rs.flatMap Request.words) = .ok rs

/-- R89: the pseudo-instructions expand to the printed descriptors and wdata. -/
def Obligations.PseudoInstructionsExpandAsPrinted : Prop :=
  Pseudo.nop.expand = [⟨0x00A00000#32, 0#32⟩] ∧
  Pseudo.init.expand = [⟨0x00A00000#32, 1#32⟩] ∧
  Pseudo.step.expand = [⟨0x00A00000#32, 2#32⟩] ∧
  Pseudo.run.expand = [⟨0x00A00000#32, 3#32⟩] ∧
  Pseudo.patch.expand = [⟨0x00A00000#32, 4#32⟩] ∧
  (∀ v, (Pseudo.setpoly v).expand = [⟨0x00A00008#32, v⟩]) ∧
  (∀ v, (Pseudo.setlen v).expand = [⟨0x00A0000C#32, v⟩]) ∧
  Pseudo.crc.expand = Pseudo.init.expand ++ Pseudo.run.expand ++ Pseudo.patch.expand

/-! ## One step (20_memory.md, 60_exceptions.md, 70_reset_and_hazards.md) -/

/-- When the host's next transaction decodes to an instruction, the step is that instruction's meaning, once the transaction is
taken from the port; nothing else is added. -/
def Obligations.StepPerformsTheDecodedTransaction : Prop :=
  ∀ (s : State) (d v : Word) (rest : List HostEvent) (i : Instr),
    s.inputs = .access ⟨d, v⟩ :: rest → decodeAccess d v = .ok i → step s = exec i { s with inputs := rest }

/-- R167, R183: a descriptor that matches no row is answered `{rdata = 0, err = 1}` and changes no register, flag or image
byte; the rule's three examples match no row. -/
def Obligations.UndecodableTransactionIsABusError : Prop :=
  (∀ (s : State) (d v : Word) (rest : List HostEvent),
    s.inputs = .access ⟨d, v⟩ :: rest → (∀ r ∈ accessRows, r.fits d = false) →
    step s = .next { s with inputs := rest, responses := ⟨0#32, true⟩ :: s.responses }) ∧
  (∀ r ∈ accessRows, r.fits 0x00900002#32 = false ∧ r.fits 0x00000004#32 = false ∧ r.fits 0x00800040#32 = false)

/-- R200, R201: the reset event gives every register its reset value. That IMG is unspecified (U1) is stated by the model's
choice of log entry 1, in the clause on `imgByte`: each byte is the free value of the new draw, of which nothing is known. -/
def Obligations.ResetGivesEveryRegisterItsValue : Prop :=
  ∀ (s : State) (rest : List HostEvent), s.inputs = .reset :: rest →
    ∃ t, step s = .next t ∧
      t.poly = 0x04C11DB7#32 ∧ t.len = 0#21 ∧ t.ptr = 0#21 ∧ t.acc = 0xFFFFFFFF#32 ∧
      t.patched = false ∧ t.errCmd = false ∧ t.errLen = false ∧ t.errRange = false ∧ t.errSeq = false ∧
      (∀ a, t.imgByte a = Config.imgDraw t.draw a) ∧
      exec .rdCmd t = .next (t.answer ⟨0#32, false⟩) ∧
      exec .rdStatus t = .next (t.answer ⟨0#32, false⟩) ∧
      exec .rdPoly t = .next (t.answer ⟨0x04C11DB7#32, false⟩) ∧
      exec .rdLen t = .next (t.answer ⟨0#32, false⟩) ∧
      exec .rdPtr t = .next (t.answer ⟨0#32, false⟩) ∧
      exec .rdAcc t = .next (t.answer ⟨0xFFFFFFFF#32, false⟩) ∧
      exec .rdResult t = .next (t.answer ⟨0xFFFFFFFF#32, false⟩) ∧
      exec .rdSeed t = .next (t.answer ⟨0xFFFFFFFF#32, false⟩) ∧
      ∀ j, exec (.rdRsvd j) t = .next (t.answer ⟨0#32, false⟩)

/-- The model's choice (log entries 1 and 5): the reset event leaves the host's side of the port alone, and the bytes after it
come from a draw of their own. -/
def Obligations.ResetKeepsTheHostsSide : Prop :=
  ∀ (s : State) (rest : List HostEvent), s.inputs = .reset :: rest →
    ∃ t, step s = .next t ∧ t.inputs = rest ∧ t.responses = s.responses ∧ t.draw ≠ s.draw

/-- R195: between transactions the block is idle and its state is kept. -/
def Obligations.IdleStepKeepsTheState : Prop :=
  ∀ s : State, s.inputs = [] → step s = .next s

/-- The model's choice (log entry 3): an instruction placed as the host's next transaction is performed by the very next step. -/
def Obligations.PlacedTableWordIsPerformedNext : Prop :=
  ∀ (s : State) (nbits w : Nat) (i : Instr), decodeTableWord nbits w = some i →
    step (s.withFetchWord nbits w) = exec i s

/-- R216: the machine never halts, stops or faults. -/
def Obligations.EveryStepHasANextState : Prop :=
  (∀ s : State, ∃ t, step s = .next t) ∧ ∀ (i : Instr) (s : State), ∃ t, exec i s = .next t

/-- A transaction is taken from the port and answered by exactly one response, within one step (20_memory.md R50, R56): err = 1
for a bus error (R183) and 0 for an access that decodes (42_bus_access.md R140, R160), and rdata = 0 for a write (the preamble
of 42_bus_access.md) and for a bus error (R183). -/
def Obligations.EachTransactionGetsOneResponse : Prop :=
  ∀ (s t : State) (r : Request) (rest : List HostEvent),
    s.inputs = .access r :: rest → step s = .next t →
    t.inputs = rest ∧ t.draw = s.draw ∧ ∃ a, t.responses = a :: s.responses ∧
      (a.err = true ↔ ∃ e, decodeAccess r.desc r.wdata = .error e) ∧
      (r.desc.getLsbD 21 = true ∨ a.err = true → a.rdata = 0#32)

/-! ## CRC arithmetic (40_crc_arithmetic.md) -/

/-- R100: the round, its corner cases and its examples. -/
def Obligations.CrcRoundShiftsAndDivides : Prop :=
  (∀ a p : Word, a.getLsbD 31 = true → crcRound a p = (a <<< 1) ^^^ p) ∧
  (∀ a p : Word, a.getLsbD 31 = false → crcRound a p = a <<< 1) ∧
  (∀ p : Word, crcRound 0#32 p = 0#32) ∧
  crcRound 0x80000000#32 0x04C11DB7#32 = 0x04C11DB7#32 ∧
  crcRound 0xFFFFFFFF#32 0x04C11DB7#32 = 0xFB3EE249#32

/-- R101: the laws of the round. -/
def Obligations.CrcRoundIsLinear : Prop :=
  (∀ a b p : Word, crcRound (a ^^^ b) p = crcRound a p ^^^ crcRound b p) ∧
  (∀ p : Word, crcRound 0#32 p = 0#32) ∧
  (∀ a : Word, crcRound a 0#32 = a <<< 1) ∧
  (∀ a p : Word, a.getLsbD 31 = false → crcRound a p = a <<< 1)

/-- R102: the word update is 32 rounds on a ^ w; its corner cases and its example. -/
def Obligations.WordUpdateIsThirtyTwoRounds : Prop :=
  (∀ a w p : Word, wordUpdate a w p = (fun t => crcRound t p)^[32] (a ^^^ w)) ∧
  (∀ a p : Word, wordUpdate a a p = 0#32) ∧
  (∀ a w : Word, wordUpdate a w 0#32 = 0#32) ∧
  (∀ (a p : Word) (b : Byte), wordUpdate a (bswap32 (b ++ b ++ b ++ b)) p = wordUpdate a (b ++ b ++ b ++ b) p) ∧
  wordUpdate 0xFFFFFFFF#32 0x00000000#32 0x04C11DB7#32 = 0xC704DD7B#32

/-- R104: the laws of the word update. `P v` reads v as a polynomial over GF(2), bit i the coefficient of x^i; (c) says that the
update is the remainder of (a ^ w)(x) · x^32 divided by G(x) = x^32 + p(x). -/
def Obligations.WordUpdateIsPolynomialRemainder : Prop :=
  let P : Word → Polynomial (ZMod 2) := fun v =>
    ∑ i ∈ Finset.range 32, if v.getLsbD i then Polynomial.X ^ i else 0
  (∀ a w p : Word, wordUpdate a w p = wordUpdate (a ^^^ w) 0#32 p) ∧
  (∀ a b p : Word, wordUpdate (a ^^^ b) 0#32 p = wordUpdate a 0#32 p ^^^ wordUpdate b 0#32 p) ∧
  (∀ p : Word, (Polynomial.X ^ 32 + P p).Monic) ∧
  (∀ a w p : Word, P (wordUpdate a w p) = (P (a ^^^ w) * Polynomial.X ^ 32) %ₘ (Polynomial.X ^ 32 + P p))

/-- R105: the image CRC starts from SEED, takes the words at 0, 4, ..., L - 8 in this order, and is SEED for L = 4. -/
def Obligations.ImageCrcTakesTheWordsInOrder : Prop :=
  ∀ (img : Nat → Byte) (p : Word),
    imageCrc img 4 p = 0xFFFFFFFF#32 ∧
    ∀ n : Nat, imageCrc img (4 * n + 8) p =
      wordUpdate (imageCrc img (4 * n + 4) p) (img (4 * n + 3) ++ img (4 * n + 2) ++ img (4 * n + 1) ++ img (4 * n)) p

/-- R106: the image CRC does not read the slot nor any byte at L or above, so that a PATCH, or the host's writing the slot,
leaves it as it was. -/
def Obligations.ImageCrcIgnoresTheSlot : Prop :=
  (∀ (f g : Nat → Byte) (L : Nat) (p : Word), L % 4 = 0 → 4 ≤ L → (∀ a, a < L - 4 → f a = g a) →
    imageCrc f L p = imageCrc g L p) ∧
  (∀ s t : State, s.lenOk = true → exec .patch s = .next t →
    imageCrc t.imgByte t.len.toNat t.poly = imageCrc s.imgByte s.len.toNat s.poly) ∧
  (∀ (s t : State) (off : Offset) (v : Word), s.lenOk = true → s.slot ≤ off.toNat → exec (.sb off v) s = .next t →
    imageCrc t.imgByte t.len.toNat t.poly = imageCrc s.imgByte s.len.toNat s.poly)

/-- R108: the image CRC is the byte-serial CRC over the image with the bytes of each word reversed; with the rule's checks. Its
last clause, the value 0x0376E6E7, is marked by R108 itself as from general knowledge, not in source. -/
def Obligations.ImageCrcIsByteSerialOnReversedWords : Prop :=
  (∀ (img : Nat → Byte) (L : Nat) (p : Word), L % 4 = 0 → 4 ≤ L → L ≤ 0x100000 →
    imageCrc img L p = byteCrc (reversedWords img (L / 4 - 1) 0) 0xFFFFFFFF#32 p) ∧
  (∀ img : Nat → Byte, (∀ k, k < 8 → img k = BitVec.ofNat 8 (0x31 + k)) →
    imageCrc img 12 0x04C11DB7#32 = 0xFEFC54F9#32) ∧
  byteCrc [0x34#8, 0x33#8, 0x32#8, 0x31#8, 0x38#8, 0x37#8, 0x36#8, 0x35#8] 0xFFFFFFFF#32 0x04C11DB7#32 = 0xFEFC54F9#32 ∧
  byteCrc [0x31#8, 0x32#8, 0x33#8, 0x34#8, 0x35#8, 0x36#8, 0x37#8, 0x38#8] 0xFFFFFFFF#32 0x04C11DB7#32 = 0x49E3C2FB#32 ∧
  byteCrc [0x31#8, 0x32#8, 0x33#8, 0x34#8, 0x35#8, 0x36#8, 0x37#8, 0x38#8, 0x39#8] 0xFFFFFFFF#32 0x04C11DB7#32 =
    0x0376E6E7#32

/-- R109: under p = 0 every word update yields 0, so the image CRC of an image with at least one word is 0. -/
def Obligations.ZeroPolynomialClearsTheImageCrc : Prop :=
  ∀ (img : Nat → Byte) (L : Nat), L % 4 = 0 → 8 ≤ L → imageCrc img L 0#32 = 0#32

/-! ## Commands (41_commands.md) -/

/-- R120: NOP changes no state, only the CMD write's answer is given; of every other command word, some state is changed. -/
def Obligations.NopChangesNothing : Prop :=
  (∀ s : State, exec .nop s = .next { s with responses := ⟨0#32, false⟩ :: s.responses }) ∧
  ∀ v : Word, v ≠ 0#32 → ∃ s : State, ∀ r, exec (.wrCmd v) s ≠ .next (s.answer r)

/-- R121: INIT loads ACC and PTR, clears PATCHED and the error bits, and changes nothing else; with LEN = 4, END is 1 at once. -/
def Obligations.InitStartsAComputation : Prop :=
  ∀ s : State, ∃ t, exec .init s = .next t ∧
    t = { s with
      acc := 0xFFFFFFFF#32, ptr := 0#21, patched := false
      errCmd := false, errLen := false, errRange := false, errSeq := false
      responses := ⟨0#32, false⟩ :: s.responses } ∧
    t.lenOk = s.lenOk ∧ (s.len = 4#21 → t.atEnd = true)

/-- R103, R122: STEP processes the word at PTR, or sets the one error bit of the first check that fails. -/
def Obligations.StepProcessesOneWord : Prop :=
  ∀ s : State,
    (s.lenOk = true → s.ptr.toNat + 4 ≤ s.len.toNat - 4 →
      exec .step s = .next { s with
        acc := wordUpdate s.acc
          (s.imgByte (s.ptr.toNat + 3) ++ s.imgByte (s.ptr.toNat + 2) ++ s.imgByte (s.ptr.toNat + 1) ++
            s.imgByte s.ptr.toNat) s.poly
        ptr := BitVec.ofNat 21 (s.ptr.toNat + 4)
        patched := false
        responses := ⟨0#32, false⟩ :: s.responses }) ∧
    (s.lenOk = false →
      exec .step s = .next { s with errLen := true, responses := ⟨0#32, false⟩ :: s.responses }) ∧
    (s.lenOk = true → s.len.toNat - 4 < s.ptr.toNat + 4 →
      exec .step s = .next { s with errRange := true, responses := ⟨0#32, false⟩ :: s.responses })

/-- R124: RUN processes every remaining word, none where PTR = LEN - 4, and then END is 1; or it sets the one error bit of the
first check that fails. The premise on PTR is the invariant of R38 (a). -/
def Obligations.RunProcessesTheRemainingWords : Prop :=
  ∀ s : State,
    (s.lenOk = true → s.ptr.toNat % 4 = 0 → s.ptr.toNat ≤ s.len.toNat - 4 →
      ∃ t, exec .run s = .next t ∧ t.atEnd = true ∧
        t = { s with
          acc := crcWords s.imgByte s.poly ((s.len.toNat - 4 - s.ptr.toNat) / 4) s.ptr.toNat s.acc
          ptr := BitVec.ofNat 21 (s.len.toNat - 4)
          patched := s.patched && decide (s.ptr.toNat = s.len.toNat - 4)
          responses := ⟨0#32, false⟩ :: s.responses }) ∧
    (s.lenOk = false →
      exec .run s = .next { s with errLen := true, responses := ⟨0#32, false⟩ :: s.responses }) ∧
    (s.lenOk = true → s.len.toNat - 4 < s.ptr.toNat →
      exec .run s = .next { s with errRange := true, responses := ⟨0#32, false⟩ :: s.responses })

/-- R125: PATCH writes ACC, most significant byte first, into the slot and sets PATCHED; every other byte and every other
register and flag stays; or it sets the one error bit of the first check that fails and writes nothing. -/
def Obligations.PatchWritesTheSlot : Prop :=
  ∀ s : State,
    (s.lenOk = true → s.ptr.toNat = s.len.toNat - 4 →
      ∃ t, exec .patch s = .next t ∧
        t.imgByte (s.len.toNat - 4) = s.acc.extractLsb' 24 8 ∧
        t.imgByte (s.len.toNat - 3) = s.acc.extractLsb' 16 8 ∧
        t.imgByte (s.len.toNat - 2) = s.acc.extractLsb' 8 8 ∧
        t.imgByte (s.len.toNat - 1) = s.acc.extractLsb' 0 8 ∧
        (∀ a, a < s.len.toNat - 4 ∨ s.len.toNat ≤ a → t.imgByte a = s.imgByte a) ∧
        { t with img := s.img } = { s with patched := true, responses := ⟨0#32, false⟩ :: s.responses }) ∧
    (s.lenOk = false →
      exec .patch s = .next { s with errLen := true, responses := ⟨0#32, false⟩ :: s.responses }) ∧
    (s.lenOk = true → s.ptr.toNat ≠ s.len.toNat - 4 →
      exec .patch s = .next { s with errSeq := true, responses := ⟨0#32, false⟩ :: s.responses })

/-- R54: a successful PATCH leaves ACC in the slot, most significant byte first, and a 32-bit read of the slot then returns
RESULT. -/
def Obligations.PatchedSlotReadsAsResult : Prop :=
  ∀ s t : State, s.atEnd = true → exec .patch s = .next t →
    exec (.lw (BitVec.ofNat 20 (s.len.toNat - 4))) t = .next (t.answer ⟨bswap32 s.acc, false⟩) ∧
    exec .rdResult t = .next (t.answer ⟨bswap32 s.acc, false⟩) ∧
    t.imgByte (s.len.toNat - 4) = s.acc.extractLsb' 24 8 ∧
    t.imgByte (s.len.toNat - 3) = s.acc.extractLsb' 16 8 ∧
    t.imgByte (s.len.toNat - 2) = s.acc.extractLsb' 8 8 ∧
    t.imgByte (s.len.toNat - 1) = s.acc.extractLsb' 0 8

/-- R126, R142: a CMD write performs the command its word selects; a reserved word sets ERR_CMD and changes nothing else. -/
def Obligations.CmdWriteIssuesTheCommand : Prop :=
  ∀ s : State,
    exec (.wrCmd 0#32) s = exec .nop s ∧ exec (.wrCmd 1#32) s = exec .init s ∧ exec (.wrCmd 2#32) s = exec .step s ∧
    exec (.wrCmd 3#32) s = exec .run s ∧ exec (.wrCmd 4#32) s = exec .patch s ∧
    ∀ v : Word, v.extractLsb' 4 28 ≠ 0#28 ∨ 5 ≤ (v.extractLsb' 0 4).toNat →
      exec (.wrCmd v) s = .next { s with errCmd := true, responses := ⟨0#32, false⟩ :: s.responses }

/-- R123: the check order. The decode of the word comes first, then LENOK for STEP, RUN and PATCH, then the command's position
check; the first check that fails sets its bit and nothing else changes. Where all pass no error bit is set, and STEP and
RUN leave PTR at most LEN - 4 (where PTR meets R38 (a)). -/
def Obligations.CommandChecksInOrder : Prop :=
  ∀ (s : State) (v : Word),
    let reserved : Prop := v.extractLsb' 4 28 ≠ 0#28 ∨ 5 ≤ (v.extractLsb' 0 4).toNat
    let checked : Prop := v = 2#32 ∨ v = 3#32 ∨ v = 4#32
    let noWordLeft : Prop :=
      v = 2#32 ∧ s.len.toNat - 4 < s.ptr.toNat + 4 ∨ v = 3#32 ∧ s.len.toNat - 4 < s.ptr.toNat
    let notAtSlot : Prop := v = 4#32 ∧ s.ptr.toNat ≠ s.len.toNat - 4
    (reserved → exec (.wrCmd v) s = .next { s with errCmd := true, responses := ⟨0#32, false⟩ :: s.responses }) ∧
    (checked → s.lenOk = false →
      exec (.wrCmd v) s = .next { s with errLen := true, responses := ⟨0#32, false⟩ :: s.responses }) ∧
    (s.lenOk = true → noWordLeft →
      exec (.wrCmd v) s = .next { s with errRange := true, responses := ⟨0#32, false⟩ :: s.responses }) ∧
    (s.lenOk = true → notAtSlot →
      exec (.wrCmd v) s = .next { s with errSeq := true, responses := ⟨0#32, false⟩ :: s.responses }) ∧
    (¬ reserved → (checked → s.lenOk = true) → ¬ noWordLeft → ¬ notAtSlot →
      ∃ t, exec (.wrCmd v) s = .next t ∧ t.responses = ⟨0#32, false⟩ :: s.responses ∧
        (t.errCmd = true → s.errCmd = true) ∧ (t.errLen = true → s.errLen = true) ∧
        (t.errRange = true → s.errRange = true) ∧ (t.errSeq = true → s.errSeq = true) ∧
        (v = 2#32 ∨ v = 3#32 → s.ptr.toNat % 4 = 0 → t.ptr.toNat ≤ s.len.toNat - 4))

/-- R34, whole machine: an error bit that is set stays set over any step that is neither a reset nor a CMD write of INIT. -/
def Obligations.ErrorBitsStickUntilInitOrReset : Prop :=
  ∀ s t : State, step s = .next t → s.inputs.head? ≠ some .reset → s.nextInstr ≠ some (.wrCmd 1#32) →
    (s.errCmd = true → t.errCmd = true) ∧ (s.errLen = true → t.errLen = true) ∧
    (s.errRange = true → t.errRange = true) ∧ (s.errSeq = true → t.errSeq = true)

/-- R34, R188: error bits that are set block no instruction: ACC, PTR, PATCHED, POLY, LEN and IMG come out the same whatever the
error bits were. -/
def Obligations.ErrorBitsBlockNothing : Prop :=
  ∀ (i : Instr) (s : State) (c l r q : Bool), ∃ t u, exec i s = .next t ∧
    exec i { s with errCmd := c, errLen := l, errRange := r, errSeq := q } = .next u ∧
    t.acc = u.acc ∧ t.ptr = u.ptr ∧ t.patched = u.patched ∧ t.poly = u.poly ∧ t.len = u.len ∧ t.img = u.img

/-- R62: no read has a side effect; a write to a read-only or reserved register has none; repeating a write to POLY, LEN or IMG,
or NOP, INIT, RUN or PATCH, gives the same state; a second STEP processes the next word. The premise is the invariant. -/
def Obligations.OnlyStepIsNotIdempotent : Prop :=
  (∀ (s : State) (off : Offset) (j : BitVec 3),
    ∀ i ∈ [Instr.rdCmd, .rdStatus, .rdPoly, .rdLen, .rdPtr, .rdAcc, .rdResult, .rdSeed, .rdRsvd j, .lb off, .lh off, .lw off],
      ∃ r, exec i s = .next (s.answer r)) ∧
  (∀ (s : State) (v : Word) (j : BitVec 3),
    ∀ i ∈ [Instr.wrStatus v, .wrPtr v, .wrAcc v, .wrResult v, .wrSeed v, .wrRsvd j v],
      ∃ r, exec i s = .next (s.answer r)) ∧
  (∀ (s t : State) (off : Offset) (v : Word), s.Inv →
    ∀ i ∈ [Instr.wrPoly v, .wrLen v, .sb off v, .sh off v, .sw off v, .nop, .init, .run, .patch],
      exec i s = .next t → ∃ r, exec i t = .next (t.answer r)) ∧
  ∀ s : State, s.lenOk = true → s.ptr.toNat + 8 ≤ s.len.toNat - 4 →
    ∃ t u, exec .step s = .next t ∧ exec .step t = .next u ∧ t.ptr.toNat = s.ptr.toNat + 4 ∧
      u.ptr.toNat = s.ptr.toNat + 8 ∧ u.acc = wordUpdate t.acc (s.memRead (s.ptr.toNat + 4) 4) s.poly

/-- R52, noninterference: no command lets the slot or any byte above it reach a register or a flag or a byte below the slot, and
none writes a byte below the slot; only PATCH writes IMG, and only in the slot. -/
def Obligations.EngineNeverReadsTheSlot : Prop :=
  ∀ (c : Instr) (s t : State), c ∈ [Instr.nop, .init, .step, .run, .patch] → s.Inv → s.agreeBelow s.slot t →
    ∃ s' t', exec c s = .next s' ∧ exec c t = .next t' ∧ s'.agreeBelow s.slot t' ∧
      (∀ a, a < s.slot ∨ s.len.toNat ≤ a → s'.imgByte a = s.imgByte a) ∧
      (c ≠ .patch → s'.imgByte = s.imgByte)

/-- R127: any number of STEPs and then a RUN leave the image CRC in ACC; so does INIT, RUN; and INIT, RUN, PATCH is the source's
full computation. -/
def Obligations.IncrementalEqualsWholeImage : Prop :=
  (∀ (s : State) (k : Nat), s.lenOk = true → s.ptr = 0#21 → s.acc = 0xFFFFFFFF#32 → k ≤ s.len.toNat / 4 - 1 →
    ∃ t, execAll (List.replicate k .step ++ [.run]) s = .next t ∧
      t.acc = imageCrc s.imgByte s.len.toNat s.poly ∧ t.ptr.toNat = s.len.toNat - 4 ∧
      t.errLen = s.errLen ∧ t.errRange = s.errRange) ∧
  (∀ s : State, s.lenOk = true →
    ∃ t, execAll [.init, .run] s = .next t ∧
      t.acc = imageCrc s.imgByte s.len.toNat s.poly ∧ t.ptr.toNat = s.len.toNat - 4) ∧
  (∀ s : State, s.lenOk = true →
    ∃ t, execAll [.init, .run, .patch] s = .next t ∧ t.patched = true ∧
      t.acc = imageCrc s.imgByte s.len.toNat s.poly ∧ t.ptr.toNat = s.len.toNat - 4 ∧
      t.imgByte (s.len.toNat - 4) = t.acc.extractLsb' 24 8 ∧
      t.imgByte (s.len.toNat - 3) = t.acc.extractLsb' 16 8 ∧
      t.imgByte (s.len.toNat - 2) = t.acc.extractLsb' 8 8 ∧
      t.imgByte (s.len.toNat - 1) = t.acc.extractLsb' 0 8)

/-! ## Registers (10_state.md, 42_bus_access.md) -/

/-- R141, R145, R147, R149, R151, R153, R155, R157: what each register read answers; nothing else changes. LEN and PTR are
zero-extended, and PTR reads as a multiple of 4 where R38 (a) holds. -/
def Obligations.RegisterReadsAnswerTheirValue : Prop :=
  ∀ s : State,
    exec .rdCmd s = .next { s with responses := ⟨0#32, false⟩ :: s.responses } ∧
    exec .rdPoly s = .next { s with responses := ⟨s.poly, false⟩ :: s.responses } ∧
    (∃ v, exec .rdLen s = .next { s with responses := ⟨v, false⟩ :: s.responses } ∧ v.toNat = s.len.toNat) ∧
    (∃ v, exec .rdPtr s = .next { s with responses := ⟨v, false⟩ :: s.responses } ∧ v.toNat = s.ptr.toNat ∧
      (s.Inv → v.toNat % 4 = 0)) ∧
    exec .rdAcc s = .next { s with responses := ⟨s.acc, false⟩ :: s.responses } ∧
    (∃ v, exec .rdResult s = .next { s with responses := ⟨v, false⟩ :: s.responses } ∧
      v.extractLsb' 24 8 = s.acc.extractLsb' 0 8 ∧ v.extractLsb' 16 8 = s.acc.extractLsb' 8 8 ∧
      v.extractLsb' 8 8 = s.acc.extractLsb' 16 8 ∧ v.extractLsb' 0 8 = s.acc.extractLsb' 24 8) ∧
    exec .rdSeed s = .next { s with responses := ⟨0xFFFFFFFF#32, false⟩ :: s.responses } ∧
    ∀ j, exec (.rdRsvd j) s = .next { s with responses := ⟨0#32, false⟩ :: s.responses }

/-- R143: the bits a read of STATUS answers; the read changes nothing else. -/
def Obligations.StatusReadsItsFields : Prop :=
  ∀ s : State, ∃ w : Word, exec .rdStatus s = .next { s with responses := ⟨w, false⟩ :: s.responses } ∧
    w.getLsbD 0 = (s.lenOk && decide (s.ptr.toNat = s.len.toNat - 4)) ∧
    w.getLsbD 1 = s.patched ∧ w.getLsbD 2 = s.lenOk ∧
    w.getLsbD 8 = s.errCmd ∧ w.getLsbD 9 = s.errLen ∧ w.getLsbD 10 = s.errRange ∧ w.getLsbD 11 = s.errSeq ∧
    ∀ n, 3 ≤ n ∧ n ≤ 7 ∨ 12 ≤ n → w.getLsbD n = false

/-- R33: LENOK, and the STATUS bit that reads it. -/
def Obligations.LenokIsTheValidLengths : Prop :=
  ∀ s : State,
    (s.lenOk = true ↔ s.len.toNat % 4 = 0 ∧ 4 ≤ s.len.toNat ∧ s.len.toNat ≤ 0x100000) ∧
    s.statusWord.getLsbD 2 = s.lenOk

/-- R144, R150, R152, R154, R156, R158: a write to a read-only or reserved register is answered and changes nothing. -/
def Obligations.ReadOnlyRegistersIgnoreWrites : Prop :=
  ∀ (s : State) (v : Word) (j : BitVec 3),
    ∀ i ∈ [Instr.wrStatus v, .wrPtr v, .wrAcc v, .wrResult v, .wrSeed v, .wrRsvd j v],
      exec i s = .next { s with responses := ⟨0#32, false⟩ :: s.responses }

/-- R146, R148: POLY stores every 32-bit value, LEN the low 21 bits, legal or not; nothing else changes. -/
def Obligations.PolyAndLenStoreTheirWrites : Prop :=
  ∀ (s : State) (v : Word),
    exec (.wrPoly v) s = .next { s with poly := v, responses := ⟨0#32, false⟩ :: s.responses } ∧
    ∃ t, exec (.wrLen v) s = .next t ∧
      t = { s with len := v.extractLsb' 0 21, responses := ⟨0#32, false⟩ :: s.responses } ∧
      (v = 0x100000#32 → t.lenOk = true) ∧ (v = 0x100004#32 → t.len = 0x100004#21 ∧ t.lenOk = false) ∧
      (v = 0x00200010#32 → t.len = 0x000010#21)

/-! ## The image window (20_memory.md, 42_bus_access.md) -/

/-- R161, R162, R163: an image read answers the little-endian value of its bytes, zero-extended, and changes nothing else; a
misaligned one is a bus error. -/
def Obligations.ImageReadsAreLittleEndian : Prop :=
  ∀ (s : State) (off : Offset),
    exec (.lb off) s = .next { s with responses := ⟨0#24 ++ s.imgByte off.toNat, false⟩ :: s.responses } ∧
    (off.toNat % 2 = 0 → exec (.lh off) s = .next { s with
      responses := ⟨0#16 ++ s.imgByte (off.toNat + 1) ++ s.imgByte off.toNat, false⟩ :: s.responses }) ∧
    (off.toNat % 4 = 0 → exec (.lw off) s = .next { s with
      responses := ⟨s.imgByte (off.toNat + 3) ++ s.imgByte (off.toNat + 2) ++ s.imgByte (off.toNat + 1) ++
        s.imgByte off.toNat, false⟩ :: s.responses }) ∧
    (off.toNat % 2 ≠ 0 → exec (.lh off) s = .next { s with responses := ⟨0#32, true⟩ :: s.responses }) ∧
    (off.toNat % 4 ≠ 0 → exec (.lw off) s = .next { s with responses := ⟨0#32, true⟩ :: s.responses })

/-- R164, R165, R166: an image write stores the low bytes of its wdata, the low byte first; every other byte of IMG and every
register and flag stays; a misaligned one is a bus error and writes nothing. -/
def Obligations.ImageWritesStoreTheirBytes : Prop :=
  ∀ (s : State) (off : Offset) (v : Word),
    (∃ t, exec (.sb off v) s = .next t ∧ t.imgByte off.toNat = v.extractLsb' 0 8 ∧
      (∀ a, a ≠ off.toNat → t.imgByte a = s.imgByte a) ∧
      { t with img := s.img } = { s with responses := ⟨0#32, false⟩ :: s.responses }) ∧
    (off.toNat % 2 = 0 → ∃ t, exec (.sh off v) s = .next t ∧
      t.imgByte off.toNat = v.extractLsb' 0 8 ∧ t.imgByte (off.toNat + 1) = v.extractLsb' 8 8 ∧
      (∀ a, a < off.toNat ∨ off.toNat + 2 ≤ a → t.imgByte a = s.imgByte a) ∧
      { t with img := s.img } = { s with responses := ⟨0#32, false⟩ :: s.responses }) ∧
    (off.toNat % 4 = 0 → ∃ t, exec (.sw off v) s = .next t ∧
      t.imgByte off.toNat = v.extractLsb' 0 8 ∧ t.imgByte (off.toNat + 1) = v.extractLsb' 8 8 ∧
      t.imgByte (off.toNat + 2) = v.extractLsb' 16 8 ∧ t.imgByte (off.toNat + 3) = v.extractLsb' 24 8 ∧
      (∀ a, a < off.toNat ∨ off.toNat + 4 ≤ a → t.imgByte a = s.imgByte a) ∧
      { t with img := s.img } = { s with responses := ⟨0#32, false⟩ :: s.responses }) ∧
    (off.toNat % 2 ≠ 0 → exec (.sh off v) s = .next { s with responses := ⟨0#32, true⟩ :: s.responses }) ∧
    (off.toNat % 4 ≠ 0 → exec (.sw off v) s = .next { s with responses := ⟨0#32, true⟩ :: s.responses })

/-- R57: a byte read after a word write returns the byte of the little-endian word; a word read after four byte writes returns
their composition; a word read after a word write returns the word. -/
def Obligations.MixedWidthsSeeOneByteArray : Prop :=
  (∀ (s : State) (off : Offset) (v : Word) (k : Nat), off.toNat % 4 = 0 → k < 4 →
    ∃ t, execAll [.sw off v, .lb (off + BitVec.ofNat 20 k)] s = .next t ∧
      t.responses.head? = some ⟨0#24 ++ v.extractLsb' (8 * k) 8, false⟩) ∧
  (∀ (s : State) (off : Offset) (a b c d : Word), off.toNat % 4 = 0 →
    ∃ t, execAll [.sb off a, .sb (off + 1#20) b, .sb (off + 2#20) c, .sb (off + 3#20) d, .lw off] s = .next t ∧
      t.responses.head? =
        some ⟨d.extractLsb' 0 8 ++ c.extractLsb' 0 8 ++ b.extractLsb' 0 8 ++ a.extractLsb' 0 8, false⟩) ∧
  (∀ (s : State) (off : Offset) (v : Word), off.toNat % 4 = 0 →
    ∃ t, execAll [.sw off v, .lw off] s = .next t ∧ t.responses.head? = some ⟨v, false⟩)

/-! ## The whole machine -/

/-- R38 (a), (b): every step keeps the invariant. Its last clause, the canonical form of IMG, is the model's choice (log
entry 2). -/
def Obligations.EveryStepKeepsTheInvariant : Prop :=
  ∀ s t : State, s.Inv → step s = .next t → t.Inv

/-- The state after reset meets the invariant. -/
def Obligations.ResetMeetsTheInvariant : Prop := State.reset.Inv

/-- R24, R28, whole machine: a step leaves ACC and PTR alone, or resets, or is an INIT, or is a STEP or RUN that processed at
least one word from PTR on. -/
def Obligations.OnlyInitAndWordStepsMoveAccAndPtr : Prop :=
  ∀ s t : State, step s = .next t →
    t.acc = s.acc ∧ t.ptr = s.ptr ∨
    (s.inputs.head? = some .reset ∨ s.nextInstr = some (.wrCmd 1#32)) ∧ t.acc = 0xFFFFFFFF#32 ∧ t.ptr = 0#21 ∨
    ∃ k, 1 ≤ k ∧ (s.nextInstr = some (.wrCmd 2#32) ∧ k = 1 ∨ s.nextInstr = some (.wrCmd 3#32)) ∧
      t.acc = crcWords s.imgByte s.poly k s.ptr.toNat s.acc ∧ t.ptr.toNat = s.ptr.toNat + 4 * k ∧
      t.ptr.toNat < s.len.toNat ∧ t.patched = false

/-- R23, R27, whole machine: only reset and the register's own write change POLY or LEN; no command does. -/
def Obligations.OnlyTheirWritesChangePolyAndLen : Prop :=
  ∀ s t : State, step s = .next t → s.inputs.head? ≠ some .reset →
    (t.poly = s.poly ∨ s.nextInstr = some (.wrPoly t.poly)) ∧
    (t.len = s.len ∨ ∃ v : Word, s.nextInstr = some (.wrLen v) ∧ t.len = v.extractLsb' 0 21)

/-- R32, whole machine: only a PATCH that passes its checks sets PATCHED; only reset, INIT and a word step clear it. -/
def Obligations.PatchedIsSetByPatchAlone : Prop :=
  ∀ s t : State, step s = .next t →
    (s.patched = false → t.patched = true → s.nextInstr = some (.wrCmd 4#32) ∧ s.atEnd = true) ∧
    (s.patched = true → t.patched = false →
      s.inputs.head? = some .reset ∨ s.nextInstr = some (.wrCmd 1#32) ∨
      (s.nextInstr = some (.wrCmd 2#32) ∨ s.nextInstr = some (.wrCmd 3#32)) ∧ t.ptr ≠ s.ptr)

/-- R40, whole machine: a transaction other than a CMD write changes neither a stored flag nor ACC nor PTR. -/
def Obligations.OnlyCommandsWriteFlags : Prop :=
  ∀ s t : State, step s = .next t → s.inputs.head? ≠ some .reset → (∀ v, s.nextInstr ≠ some (.wrCmd v)) →
    t.patched = s.patched ∧ t.errCmd = s.errCmd ∧ t.errLen = s.errLen ∧ t.errRange = s.errRange ∧
    t.errSeq = s.errSeq ∧ t.acc = s.acc ∧ t.ptr = s.ptr

/-- Whole machine (R37, R52, R55, R70): a byte of IMG changes only by a host write to it, by a PATCH that passes its checks and
has it in its slot, or by reset. -/
def Obligations.OnlyStoresAndPatchChangeTheImage : Prop :=
  ∀ (s t : State) (a : Nat), step s = .next t → t.imgByte a ≠ s.imgByte a →
    s.inputs.head? = some .reset ∨
    (∃ off v, s.nextInstr = some (.sb off v) ∧ a = off.toNat) ∨
    (∃ off v, s.nextInstr = some (.sh off v) ∧ off.toNat ≤ a ∧ a < off.toNat + 2) ∨
    (∃ off v, s.nextInstr = some (.sw off v) ∧ off.toNat ≤ a ∧ a < off.toNat + 4) ∨
    s.nextInstr = some (.wrCmd 4#32) ∧ s.atEnd = true ∧ s.len.toNat - 4 ≤ a ∧ a < s.len.toNat

/-! ## Reset and hazards (70_reset_and_hazards.md) -/

/-- R204: LEN = 0 after reset, so LENOK = 0; while LEN fails LENOK, STEP, RUN and PATCH only set ERR_LEN. -/
def Obligations.CommandsOnlySetErrLenUntilLenIsWritten : Prop :=
  State.reset.len = 0#21 ∧ State.reset.lenOk = false ∧ ∀ s : State, s.lenOk = false → ∀ c ∈ [Instr.step, .run, .patch],
    exec c s = .next { s with errLen := true, responses := ⟨0#32, false⟩ :: s.responses }

/-- R203: INIT leaves POLY, LEN and IMG unchanged, and after it the registers are those of reset once POLY and LEN are. -/
def Obligations.InitIsNotAReset : Prop :=
  ∀ s : State, ∃ t, exec .init s = .next t ∧ t.poly = s.poly ∧ t.len = s.len ∧ t.imgByte = s.imgByte ∧
    (s.poly = 0x04C11DB7#32 → s.len = 0#21 →
      { t with img := [], draw := 0, inputs := [], responses := [] } = State.reset)

/-- R211: a POLY write between two word steps makes the later one use the new polynomial. -/
def Obligations.PolyWriteChangesTheRemainingWords : Prop :=
  ∀ (s : State) (q : Word), s.lenOk = true → s.ptr.toNat + 8 ≤ s.len.toNat - 4 →
    ∃ t, execAll [.step, .wrPoly q, .step] s = .next t ∧ t.poly = q ∧ t.ptr.toNat = s.ptr.toNat + 8 ∧
      t.acc = wordUpdate (wordUpdate s.acc (s.memRead s.ptr.toNat 4) s.poly) (s.memRead (s.ptr.toNat + 4) 4) q

/-- R212: after a valid LEN lowered below PTR, a STEP, a RUN and a PATCH leave ERR_RANGE and ERR_SEQ set, and nothing is
processed. What each of the three sets by itself is in `Obligations.CommandChecksInOrder`. -/
def Obligations.LenLoweredBelowPtrIsRefused : Prop :=
  ∀ (s : State) (v : Word), { s with len := v.extractLsb' 0 21 }.lenOk = true →
    (v.extractLsb' 0 21).toNat - 4 < s.ptr.toNat →
    ∃ t, execAll [.wrLen v, .step, .run, .patch] s = .next t ∧ t.errRange = true ∧ t.errSeq = true ∧
      t.errLen = s.errLen ∧ t.errCmd = s.errCmd ∧ t.acc = s.acc ∧ t.ptr = s.ptr ∧ t.patched = s.patched ∧
      t.imgByte = s.imgByte

/-- R213: an image byte behind PTR has no influence on the word steps that remain: the outcomes are the same but for IMG. -/
def Obligations.WordStepsNeverReadBehindPtr : Prop :=
  ∀ (s : State) (m : Memory) (c : Instr), c ∈ [Instr.step, .run] →
    (∀ a, s.ptr.toNat ≤ a → { s with img := m }.imgByte a = s.imgByte a) →
    ∃ t u, exec c s = .next t ∧ exec c { s with img := m } = .next u ∧ { u with img := t.img } = t

/-! ## Host programs (30_encoding.md R88 to R91) -/

/-- R88, with the model's choices of log entry 7: the text of lines reads as the transactions it stands for; among them the rule's
example and a misaligned access, which is a line like any other. The blank line, the offsets that `RSVD<off>` takes, and which
operands and forms are rejected are the model's reading (log entry 7), not the rule's words. -/
def Obligations.HostTextReadsAsTransactions : Prop :=
  (∃ ops, parseProgram "sw IMG[0x10], 0x44332211 ; the rule's example\nrd REG.RSVD0x3C\n\nlw IMG[2]\nwr REG.LEN, 20" = .ok ops ∧
    ops.flatMap HostOp.requests =
      [⟨0x00B00010#32, 0x44332211#32⟩, ⟨0x0080003C#32, 0#32⟩, ⟨0x00900002#32, 0#32⟩, ⟨0x00A0000C#32, 20#32⟩]) ∧
  parseProgram "lb IMG[0x100000]" = .error .badOperand ∧
  parseProgram "rd REG.RSVD0x40" = .error .badOperand ∧
  parseProgram "lb IMG[0], 1" = .error .unknownForm

/-- R90: the polling loop. Where LENOK holds and PTR is at a word before the slot or at the slot, it stops with END = 1 after one
read more than there are words left, each word taken by one STEP. Where LENOK fails or LEN is below PTR + 4 it never stops,
because STEP then only sets ERR_LEN or ERR_RANGE and END stays 0. -/
def Obligations.PollingLoopStopsAtEndOrNever : Prop :=
  ∀ s : State,
    (s.lenOk = true → s.ptr.toNat % 4 = 0 → s.ptr.toNat ≤ s.len.toNat - 4 →
      ∀ fuel, (s.len.toNat - 4 - s.ptr.toNat) / 4 < fuel →
      ∃ t, untilEnd fuel s = some t ∧ t.atEnd = true ∧ t.ptr.toNat = s.len.toNat - 4 ∧
        t.acc = crcWords s.imgByte s.poly ((s.len.toNat - 4 - s.ptr.toNat) / 4) s.ptr.toNat s.acc ∧
        t.responses.length = s.responses.length + 2 * ((s.len.toNat - 4 - s.ptr.toNat) / 4) + 1 ∧
        t.errLen = s.errLen ∧ t.errRange = s.errRange) ∧
    (s.lenOk = false ∨ s.len.toNat < s.ptr.toNat + 4 →
      (∀ fuel, untilEnd fuel s = none) ∧
      ∃ t, exec .step s = .next t ∧ t.atEnd = false ∧
        { t with errLen := s.errLen, errRange := s.errRange } =
          { s with responses := ⟨0#32, false⟩ :: s.responses })

/-- R91: the source's call, `crc`, computes the checksum and patches it; its path that only displays, INIT, RUN and a read of
RESULT, answers the byte-reversed checksum and leaves the image alone. -/
def Obligations.SourceCallsAreHostPrograms : Prop :=
  ∀ (s : State) (fuel : Nat), s.lenOk = true →
    (∃ t, runProgram fuel [.pseudo .crc] s = some t ∧ t.acc = imageCrc s.imgByte s.len.toNat s.poly ∧ t.patched = true ∧
      t.memRead (s.len.toNat - 4) 4 = bswap32 (imageCrc s.imgByte s.len.toNat s.poly)) ∧
    (∃ t, runProgram fuel [.pseudo .init, .pseudo .run, .rd .result] s = some t ∧
      t.responses.head? = some ⟨bswap32 (imageCrc s.imgByte s.len.toNat s.poly), false⟩ ∧ t.imgByte = s.imgByte)
end

