-- ==== Sys2Proof/Laws/State.lean ====
section
/-! SUPPORT. What each named update of State does to each field. -/

namespace Sys2Proof.Machine.State

/-! the port's answer (20_memory.md R50) -/

@[simp] theorem answer_acc (s : State) (r : Response) : (s.answer r).acc = s.acc := rfl
@[simp] theorem answer_poly (s : State) (r : Response) : (s.answer r).poly = s.poly := rfl
@[simp] theorem answer_len (s : State) (r : Response) : (s.answer r).len = s.len := rfl
@[simp] theorem answer_ptr (s : State) (r : Response) : (s.answer r).ptr = s.ptr := rfl
@[simp] theorem answer_patched (s : State) (r : Response) : (s.answer r).patched = s.patched := rfl
@[simp] theorem answer_errCmd (s : State) (r : Response) : (s.answer r).errCmd = s.errCmd := rfl
@[simp] theorem answer_errLen (s : State) (r : Response) : (s.answer r).errLen = s.errLen := rfl
@[simp] theorem answer_errRange (s : State) (r : Response) : (s.answer r).errRange = s.errRange := rfl
@[simp] theorem answer_errSeq (s : State) (r : Response) : (s.answer r).errSeq = s.errSeq := rfl
@[simp] theorem answer_img (s : State) (r : Response) : (s.answer r).img = s.img := rfl
@[simp] theorem answer_draw (s : State) (r : Response) : (s.answer r).draw = s.draw := rfl
@[simp] theorem answer_inputs (s : State) (r : Response) : (s.answer r).inputs = s.inputs := rfl
@[simp] theorem answer_responses (s : State) (r : Response) : (s.answer r).responses = r :: s.responses := rfl

/-! `set ERR_CMD` -/

@[simp] theorem raiseErrCmd_acc (s : State) : (s.raiseErrCmd).acc = s.acc := rfl
@[simp] theorem raiseErrCmd_poly (s : State) : (s.raiseErrCmd).poly = s.poly := rfl
@[simp] theorem raiseErrCmd_len (s : State) : (s.raiseErrCmd).len = s.len := rfl
@[simp] theorem raiseErrCmd_ptr (s : State) : (s.raiseErrCmd).ptr = s.ptr := rfl
@[simp] theorem raiseErrCmd_patched (s : State) : (s.raiseErrCmd).patched = s.patched := rfl
@[simp] theorem raiseErrCmd_errCmd (s : State) : (s.raiseErrCmd).errCmd = true := rfl
@[simp] theorem raiseErrCmd_errLen (s : State) : (s.raiseErrCmd).errLen = s.errLen := rfl
@[simp] theorem raiseErrCmd_errRange (s : State) : (s.raiseErrCmd).errRange = s.errRange := rfl
@[simp] theorem raiseErrCmd_errSeq (s : State) : (s.raiseErrCmd).errSeq = s.errSeq := rfl
@[simp] theorem raiseErrCmd_img (s : State) : (s.raiseErrCmd).img = s.img := rfl
@[simp] theorem raiseErrCmd_draw (s : State) : (s.raiseErrCmd).draw = s.draw := rfl
@[simp] theorem raiseErrCmd_inputs (s : State) : (s.raiseErrCmd).inputs = s.inputs := rfl
@[simp] theorem raiseErrCmd_responses (s : State) : (s.raiseErrCmd).responses = s.responses := rfl

/-! `set ERR_LEN` -/

@[simp] theorem raiseErrLen_acc (s : State) : (s.raiseErrLen).acc = s.acc := rfl
@[simp] theorem raiseErrLen_poly (s : State) : (s.raiseErrLen).poly = s.poly := rfl
@[simp] theorem raiseErrLen_len (s : State) : (s.raiseErrLen).len = s.len := rfl
@[simp] theorem raiseErrLen_ptr (s : State) : (s.raiseErrLen).ptr = s.ptr := rfl
@[simp] theorem raiseErrLen_patched (s : State) : (s.raiseErrLen).patched = s.patched := rfl
@[simp] theorem raiseErrLen_errCmd (s : State) : (s.raiseErrLen).errCmd = s.errCmd := rfl
@[simp] theorem raiseErrLen_errLen (s : State) : (s.raiseErrLen).errLen = true := rfl
@[simp] theorem raiseErrLen_errRange (s : State) : (s.raiseErrLen).errRange = s.errRange := rfl
@[simp] theorem raiseErrLen_errSeq (s : State) : (s.raiseErrLen).errSeq = s.errSeq := rfl
@[simp] theorem raiseErrLen_img (s : State) : (s.raiseErrLen).img = s.img := rfl
@[simp] theorem raiseErrLen_draw (s : State) : (s.raiseErrLen).draw = s.draw := rfl
@[simp] theorem raiseErrLen_inputs (s : State) : (s.raiseErrLen).inputs = s.inputs := rfl
@[simp] theorem raiseErrLen_responses (s : State) : (s.raiseErrLen).responses = s.responses := rfl

/-! `set ERR_RANGE` -/

@[simp] theorem raiseErrRange_acc (s : State) : (s.raiseErrRange).acc = s.acc := rfl
@[simp] theorem raiseErrRange_poly (s : State) : (s.raiseErrRange).poly = s.poly := rfl
@[simp] theorem raiseErrRange_len (s : State) : (s.raiseErrRange).len = s.len := rfl
@[simp] theorem raiseErrRange_ptr (s : State) : (s.raiseErrRange).ptr = s.ptr := rfl
@[simp] theorem raiseErrRange_patched (s : State) : (s.raiseErrRange).patched = s.patched := rfl
@[simp] theorem raiseErrRange_errCmd (s : State) : (s.raiseErrRange).errCmd = s.errCmd := rfl
@[simp] theorem raiseErrRange_errLen (s : State) : (s.raiseErrRange).errLen = s.errLen := rfl
@[simp] theorem raiseErrRange_errRange (s : State) : (s.raiseErrRange).errRange = true := rfl
@[simp] theorem raiseErrRange_errSeq (s : State) : (s.raiseErrRange).errSeq = s.errSeq := rfl
@[simp] theorem raiseErrRange_img (s : State) : (s.raiseErrRange).img = s.img := rfl
@[simp] theorem raiseErrRange_draw (s : State) : (s.raiseErrRange).draw = s.draw := rfl
@[simp] theorem raiseErrRange_inputs (s : State) : (s.raiseErrRange).inputs = s.inputs := rfl
@[simp] theorem raiseErrRange_responses (s : State) : (s.raiseErrRange).responses = s.responses := rfl

/-! `set ERR_SEQ` -/

@[simp] theorem raiseErrSeq_acc (s : State) : (s.raiseErrSeq).acc = s.acc := rfl
@[simp] theorem raiseErrSeq_poly (s : State) : (s.raiseErrSeq).poly = s.poly := rfl
@[simp] theorem raiseErrSeq_len (s : State) : (s.raiseErrSeq).len = s.len := rfl
@[simp] theorem raiseErrSeq_ptr (s : State) : (s.raiseErrSeq).ptr = s.ptr := rfl
@[simp] theorem raiseErrSeq_patched (s : State) : (s.raiseErrSeq).patched = s.patched := rfl
@[simp] theorem raiseErrSeq_errCmd (s : State) : (s.raiseErrSeq).errCmd = s.errCmd := rfl
@[simp] theorem raiseErrSeq_errLen (s : State) : (s.raiseErrSeq).errLen = s.errLen := rfl
@[simp] theorem raiseErrSeq_errRange (s : State) : (s.raiseErrSeq).errRange = s.errRange := rfl
@[simp] theorem raiseErrSeq_errSeq (s : State) : (s.raiseErrSeq).errSeq = true := rfl
@[simp] theorem raiseErrSeq_img (s : State) : (s.raiseErrSeq).img = s.img := rfl
@[simp] theorem raiseErrSeq_draw (s : State) : (s.raiseErrSeq).draw = s.draw := rfl
@[simp] theorem raiseErrSeq_inputs (s : State) : (s.raiseErrSeq).inputs = s.inputs := rfl
@[simp] theorem raiseErrSeq_responses (s : State) : (s.raiseErrSeq).responses = s.responses := rfl

/-! INIT's clearing of the flags -/

@[simp] theorem clearFlags_acc (s : State) : (s.clearFlags).acc = s.acc := rfl
@[simp] theorem clearFlags_poly (s : State) : (s.clearFlags).poly = s.poly := rfl
@[simp] theorem clearFlags_len (s : State) : (s.clearFlags).len = s.len := rfl
@[simp] theorem clearFlags_ptr (s : State) : (s.clearFlags).ptr = s.ptr := rfl
@[simp] theorem clearFlags_patched (s : State) : (s.clearFlags).patched = false := rfl
@[simp] theorem clearFlags_errCmd (s : State) : (s.clearFlags).errCmd = false := rfl
@[simp] theorem clearFlags_errLen (s : State) : (s.clearFlags).errLen = false := rfl
@[simp] theorem clearFlags_errRange (s : State) : (s.clearFlags).errRange = false := rfl
@[simp] theorem clearFlags_errSeq (s : State) : (s.clearFlags).errSeq = false := rfl
@[simp] theorem clearFlags_img (s : State) : (s.clearFlags).img = s.img := rfl
@[simp] theorem clearFlags_draw (s : State) : (s.clearFlags).draw = s.draw := rfl
@[simp] theorem clearFlags_inputs (s : State) : (s.clearFlags).inputs = s.inputs := rfl
@[simp] theorem clearFlags_responses (s : State) : (s.clearFlags).responses = s.responses := rfl

/-! `MemWrite` -/

@[simp] theorem memWrite_acc (s : State) (i n : Nat) (v : Word) : (s.memWrite i n v).acc = s.acc := rfl
@[simp] theorem memWrite_poly (s : State) (i n : Nat) (v : Word) : (s.memWrite i n v).poly = s.poly := rfl
@[simp] theorem memWrite_len (s : State) (i n : Nat) (v : Word) : (s.memWrite i n v).len = s.len := rfl
@[simp] theorem memWrite_ptr (s : State) (i n : Nat) (v : Word) : (s.memWrite i n v).ptr = s.ptr := rfl
@[simp] theorem memWrite_patched (s : State) (i n : Nat) (v : Word) : (s.memWrite i n v).patched = s.patched := rfl
@[simp] theorem memWrite_errCmd (s : State) (i n : Nat) (v : Word) : (s.memWrite i n v).errCmd = s.errCmd := rfl
@[simp] theorem memWrite_errLen (s : State) (i n : Nat) (v : Word) : (s.memWrite i n v).errLen = s.errLen := rfl
@[simp] theorem memWrite_errRange (s : State) (i n : Nat) (v : Word) : (s.memWrite i n v).errRange = s.errRange := rfl
@[simp] theorem memWrite_errSeq (s : State) (i n : Nat) (v : Word) : (s.memWrite i n v).errSeq = s.errSeq := rfl
@[simp] theorem memWrite_img (s : State) (i n : Nat) (v : Word) :
    (s.memWrite i n v).img = Memory.writeBytes i n v s.img := rfl
@[simp] theorem memWrite_draw (s : State) (i n : Nat) (v : Word) : (s.memWrite i n v).draw = s.draw := rfl
@[simp] theorem memWrite_inputs (s : State) (i n : Nat) (v : Word) : (s.memWrite i n v).inputs = s.inputs := rfl
@[simp] theorem memWrite_responses (s : State) (i n : Nat) (v : Word) :
    (s.memWrite i n v).responses = s.responses := rfl

/-! the word step -/

@[simp] theorem wordStep_acc (s : State) :
    (s.wordStep).acc = wordUpdate s.acc (s.memRead s.ptr.toNat Config.wordBytes) s.poly := rfl
@[simp] theorem wordStep_poly (s : State) : (s.wordStep).poly = s.poly := rfl
@[simp] theorem wordStep_len (s : State) : (s.wordStep).len = s.len := rfl
@[simp] theorem wordStep_ptr (s : State) : (s.wordStep).ptr = s.ptr + 4#21 := rfl
@[simp] theorem wordStep_patched (s : State) : (s.wordStep).patched = false := rfl
@[simp] theorem wordStep_errCmd (s : State) : (s.wordStep).errCmd = s.errCmd := rfl
@[simp] theorem wordStep_errLen (s : State) : (s.wordStep).errLen = s.errLen := rfl
@[simp] theorem wordStep_errRange (s : State) : (s.wordStep).errRange = s.errRange := rfl
@[simp] theorem wordStep_errSeq (s : State) : (s.wordStep).errSeq = s.errSeq := rfl
@[simp] theorem wordStep_img (s : State) : (s.wordStep).img = s.img := rfl
@[simp] theorem wordStep_draw (s : State) : (s.wordStep).draw = s.draw := rfl
@[simp] theorem wordStep_inputs (s : State) : (s.wordStep).inputs = s.inputs := rfl
@[simp] theorem wordStep_responses (s : State) : (s.wordStep).responses = s.responses := rfl

/-! a PATCH whose checks pass -/

@[simp] theorem patchSlot_acc (s : State) : (s.patchSlot).acc = s.acc := rfl
@[simp] theorem patchSlot_poly (s : State) : (s.patchSlot).poly = s.poly := rfl
@[simp] theorem patchSlot_len (s : State) : (s.patchSlot).len = s.len := rfl
@[simp] theorem patchSlot_ptr (s : State) : (s.patchSlot).ptr = s.ptr := rfl
@[simp] theorem patchSlot_patched (s : State) : (s.patchSlot).patched = true := rfl
@[simp] theorem patchSlot_errCmd (s : State) : (s.patchSlot).errCmd = s.errCmd := rfl
@[simp] theorem patchSlot_errLen (s : State) : (s.patchSlot).errLen = s.errLen := rfl
@[simp] theorem patchSlot_errRange (s : State) : (s.patchSlot).errRange = s.errRange := rfl
@[simp] theorem patchSlot_errSeq (s : State) : (s.patchSlot).errSeq = s.errSeq := rfl
@[simp] theorem patchSlot_img (s : State) :
    (s.patchSlot).img = Memory.writeBytes s.slot Config.slotBytes (bswap32 s.acc) s.img := rfl
@[simp] theorem patchSlot_draw (s : State) : (s.patchSlot).draw = s.draw := rfl
@[simp] theorem patchSlot_inputs (s : State) : (s.patchSlot).inputs = s.inputs := rfl
@[simp] theorem patchSlot_responses (s : State) : (s.patchSlot).responses = s.responses := rfl

/-! the reset event -/

@[simp] theorem resetInput_acc (s : State) : (s.resetInput).acc = Config.seed := rfl
@[simp] theorem resetInput_poly (s : State) : (s.resetInput).poly = Config.polyReset := rfl
@[simp] theorem resetInput_len (s : State) : (s.resetInput).len = 0 := rfl
@[simp] theorem resetInput_ptr (s : State) : (s.resetInput).ptr = 0 := rfl
@[simp] theorem resetInput_patched (s : State) : (s.resetInput).patched = false := rfl
@[simp] theorem resetInput_errCmd (s : State) : (s.resetInput).errCmd = false := rfl
@[simp] theorem resetInput_errLen (s : State) : (s.resetInput).errLen = false := rfl
@[simp] theorem resetInput_errRange (s : State) : (s.resetInput).errRange = false := rfl
@[simp] theorem resetInput_errSeq (s : State) : (s.resetInput).errSeq = false := rfl
@[simp] theorem resetInput_img (s : State) : (s.resetInput).img = [] := rfl
@[simp] theorem resetInput_draw (s : State) : (s.resetInput).draw = s.draw + 1 := rfl
@[simp] theorem resetInput_inputs (s : State) : (s.resetInput).inputs = s.inputs := rfl
@[simp] theorem resetInput_responses (s : State) : (s.resetInput).responses = s.responses := rfl

/-! taking the host's next event -/

@[simp] theorem dropInput_acc (s : State) : (s.dropInput).acc = s.acc := rfl
@[simp] theorem dropInput_poly (s : State) : (s.dropInput).poly = s.poly := rfl
@[simp] theorem dropInput_len (s : State) : (s.dropInput).len = s.len := rfl
@[simp] theorem dropInput_ptr (s : State) : (s.dropInput).ptr = s.ptr := rfl
@[simp] theorem dropInput_patched (s : State) : (s.dropInput).patched = s.patched := rfl
@[simp] theorem dropInput_errCmd (s : State) : (s.dropInput).errCmd = s.errCmd := rfl
@[simp] theorem dropInput_errLen (s : State) : (s.dropInput).errLen = s.errLen := rfl
@[simp] theorem dropInput_errRange (s : State) : (s.dropInput).errRange = s.errRange := rfl
@[simp] theorem dropInput_errSeq (s : State) : (s.dropInput).errSeq = s.errSeq := rfl
@[simp] theorem dropInput_img (s : State) : (s.dropInput).img = s.img := rfl
@[simp] theorem dropInput_draw (s : State) : (s.dropInput).draw = s.draw := rfl
@[simp] theorem dropInput_inputs (s : State) : (s.dropInput).inputs = s.inputs.tail := rfl
@[simp] theorem dropInput_responses (s : State) : (s.dropInput).responses = s.responses := rfl

/-! one more transaction of the host -/

@[simp] theorem pushRequest_acc (s : State) (r : Request) : (s.pushRequest r).acc = s.acc := rfl
@[simp] theorem pushRequest_poly (s : State) (r : Request) : (s.pushRequest r).poly = s.poly := rfl
@[simp] theorem pushRequest_len (s : State) (r : Request) : (s.pushRequest r).len = s.len := rfl
@[simp] theorem pushRequest_ptr (s : State) (r : Request) : (s.pushRequest r).ptr = s.ptr := rfl
@[simp] theorem pushRequest_patched (s : State) (r : Request) : (s.pushRequest r).patched = s.patched := rfl
@[simp] theorem pushRequest_errCmd (s : State) (r : Request) : (s.pushRequest r).errCmd = s.errCmd := rfl
@[simp] theorem pushRequest_errLen (s : State) (r : Request) : (s.pushRequest r).errLen = s.errLen := rfl
@[simp] theorem pushRequest_errRange (s : State) (r : Request) : (s.pushRequest r).errRange = s.errRange := rfl
@[simp] theorem pushRequest_errSeq (s : State) (r : Request) : (s.pushRequest r).errSeq = s.errSeq := rfl
@[simp] theorem pushRequest_img (s : State) (r : Request) : (s.pushRequest r).img = s.img := rfl
@[simp] theorem pushRequest_draw (s : State) (r : Request) : (s.pushRequest r).draw = s.draw := rfl
@[simp] theorem pushRequest_inputs (s : State) (r : Request) : (s.pushRequest r).inputs = .access r :: s.inputs := rfl
@[simp] theorem pushRequest_responses (s : State) (r : Request) : (s.pushRequest r).responses = s.responses := rfl

/-! the three answers are one operation -/

@[simp] theorem answerRead_eq (s : State) (v : Word) : s.answerRead v = s.answer ⟨v, false⟩ := rfl
@[simp] theorem answerWrite_eq (s : State) : s.answerWrite = s.answer ⟨0#32, false⟩ := rfl
@[simp] theorem busError_eq (s : State) : s.busError = s.answer ⟨0#32, true⟩ := rfl

/-! the computed bits read LEN and PTR alone (10_state.md R31, R33) -/

@[simp] theorem lenOk_answer (s : State) (r : Response) : (s.answer r).lenOk = s.lenOk := rfl
@[simp] theorem slot_answer (s : State) (r : Response) : (s.answer r).slot = s.slot := rfl
@[simp] theorem imgByte_answer (s : State) (r : Response) : (s.answer r).imgByte = s.imgByte := rfl
@[simp] theorem lenOk_wordStep (s : State) : s.wordStep.lenOk = s.lenOk := rfl
@[simp] theorem slot_wordStep (s : State) : s.wordStep.slot = s.slot := rfl
@[simp] theorem imgByte_wordStep (s : State) : s.wordStep.imgByte = s.imgByte := rfl
@[simp] theorem memRead_wordStep (s : State) : s.wordStep.memRead = s.memRead := rfl

end Sys2Proof.Machine.State
end

