-- ==== Sys2Proof/Laws/Memory.lean ====
section
/-! SUPPORT. The image buffer: read after write, other offsets kept, the canonical form kept and unique, and the bytes of a
multi-byte access. -/

namespace Sys2Proof.Machine

/-! ## One byte -/

theorem Memory.lookup_write (a b : Nat) (v : Byte) (m : Memory) :
    Memory.lookup b (Memory.write a v m) = if b = a then some v else Memory.lookup b m := by
  induction m with
  | nil => simp [Memory.write, Memory.lookup, eq_comm]
  | cons c m ih =>
    unfold Memory.write
    split
    · simp only [Memory.lookup, eq_comm]
    · split
      · next h => subst h; by_cases hb : b = c.1 <;> simp [Memory.lookup, hb, eq_comm]
      · next h =>
        simp only [Memory.lookup, ih]
        by_cases hc : c.1 = b
        · have : b ≠ a := by omega
          simp [hc, this]
        · simp [hc]

/-! ## The canonical form -/

/-- The offsets of a rising memory below its head are not listed. -/
theorem Memory.lookup_lt_head {m : Memory} {c : Host.Cell} (h : Memory.rising (c :: m) = true) {a : Nat}
    (ha : a < c.1) : Memory.lookup a (c :: m) = none := by
  induction m generalizing c with
  | nil => simp [Memory.lookup]; omega
  | cons d m ih =>
    simp only [Memory.rising, Bool.and_eq_true, decide_eq_true_eq] at h
    simp only [Memory.lookup] at ih ⊢
    rw [if_neg (by omega)]
    exact ih h.2 (by omega)

theorem Memory.rising_tail {m : Memory} {c : Host.Cell} (h : Memory.rising (c :: m) = true) :
    Memory.rising m = true := by
  cases m with
  | nil => rfl
  | cons d m => simp [Memory.rising] at h; exact h.2

theorem Memory.rising_write (a : Nat) (v : Byte) (m : Memory) (h : Memory.rising m = true) :
    Memory.rising (Memory.write a v m) = true := by
  induction m with
  | nil => rfl
  | cons c m ih =>
    have ht := Memory.rising_tail h
    unfold Memory.write
    split
    · next hlt => simp [Memory.rising, hlt, h]
    · split
      · next heq =>
        subst heq
        cases m with
        | nil => rfl
        | cons d m => simpa [Memory.rising] using h
      · next hne hneq =>
        have hi := ih ht
        cases m with
        | nil => simp [Memory.write, Memory.rising]; omega
        | cons d m =>
          simp only [Memory.rising, Bool.and_eq_true, decide_eq_true_eq] at h
          unfold Memory.write at hi ⊢
          split
          · next hlt => simp [Memory.rising, hlt, h.2]; omega
          · split
            · next heq => subst heq; simp_all [Memory.rising]
            · next h1 h2 =>
              rw [if_neg h1, if_neg h2] at hi
              simp [Memory.rising, h.1]
              exact hi

theorem Memory.all_write (p : Host.Cell → Bool) (a : Nat) (v : Byte) (m : Memory) (h : m.all p = true)
    (hp : p (a, v) = true) : (Memory.write a v m).all p = true := by
  induction m with
  | nil => simpa [Memory.write] using hp
  | cons c m ih =>
    simp only [List.all_cons, Bool.and_eq_true] at h
    unfold Memory.write
    split
    · simp [h.1, h.2, hp]
    · split
      · simp [h.2, hp]
      · simp [h.1, ih h.2]

/-- A write below IMG_CAP keeps the canonical form. -/
theorem Memory.wf_write (a : Nat) (v : Byte) (m : Memory) (h : Memory.wf m = true) (ha : a < Config.imgCap) :
    Memory.wf (Memory.write a v m) = true := by
  simp only [Memory.wf, Bool.and_eq_true] at h ⊢
  exact ⟨Memory.rising_write a v m h.1, Memory.all_write _ a v m h.2 (by simpa using ha)⟩

/-- Memories in canonical form that hold the same written bytes are the same list. -/
theorem Memory.ext_of_rising {m n : Memory} (hm : Memory.rising m = true) (hn : Memory.rising n = true)
    (h : ∀ a, Memory.lookup a m = Memory.lookup a n) : m = n := by
  induction m generalizing n with
  | nil =>
    cases n with
    | nil => rfl
    | cons d n => have := h d.1; simp [Memory.lookup] at this
  | cons c m ih =>
    cases n with
    | nil => have := h c.1; simp [Memory.lookup] at this
    | cons d n =>
      have hcd : c.1 = d.1 := by
        rcases Nat.lt_trichotomy c.1 d.1 with hlt | heq | hgt
        · have := h c.1
          rw [Memory.lookup_lt_head hn hlt] at this
          simp [Memory.lookup] at this
        · exact heq
        · have := h d.1
          rw [Memory.lookup_lt_head hm hgt] at this
          simp [Memory.lookup] at this
      have hval : c.2 = d.2 := by have := h c.1; simpa [Memory.lookup, hcd] using this
      have hlist : m = n := by
        refine ih (Memory.rising_tail hm) (Memory.rising_tail hn) fun a => ?_
        by_cases ha : a ≤ c.1
        · have hmn : ∀ (e : Host.Cell) (l : Memory), e.1 = c.1 → Memory.rising (e :: l) = true →
              Memory.lookup a l = none := by
            intro e l he hl
            cases l with
            | nil => rfl
            | cons f l =>
              have hl' := hl
              simp only [Memory.rising, Bool.and_eq_true, decide_eq_true_eq] at hl'
              exact Memory.lookup_lt_head hl'.2 (by omega)
          rw [hmn c m rfl hm, hmn d n hcd.symm hn]
        · have := h a
          simp only [Memory.lookup] at this
          rwa [if_neg (by omega), if_neg (by omega)] at this
      rw [hlist, Prod.ext hcd hval]

/-- A byte in canonical form lies below IMG_CAP. -/
theorem Memory.lookup_lt_imgCap {m : Memory} (h : Memory.wf m = true) {a : Nat} {v : Byte}
    (hl : Memory.lookup a m = some v) : a < Config.imgCap := by
  simp only [Memory.wf, Bool.and_eq_true, List.all_eq_true, decide_eq_true_eq] at h
  obtain ⟨-, h⟩ := h
  induction m with
  | nil => simp [Memory.lookup] at hl
  | cons c m ih =>
    simp only [Memory.lookup] at hl
    split at hl
    · next hc => exact hc ▸ h c (by simp)
    · exact ih hl fun x hx => h x (by simp [hx])

/-! ## Several bytes -/

/-- `MemWrite(i, n, v)` leaves every offset outside i .. i+n-1 alone. -/
theorem Memory.lookup_writeBytes_out (i n : Nat) (v : Word) (m : Memory) (b : Nat) (h : b < i ∨ i + n ≤ b) :
    Memory.lookup b (Memory.writeBytes i n v m) = Memory.lookup b m := by
  induction n generalizing i v m with
  | zero => rfl
  | succ n ih =>
    rw [Memory.writeBytes, ih _ _ _ (by omega), Memory.lookup_write, if_neg (by omega)]

/-- `MemWrite(i, n, v)` puts v[8k+7:8k] at offset i+k. -/
theorem Memory.lookup_writeBytes_in (i n : Nat) (v : Word) (m : Memory) (k : Nat) (h : k < n) :
    Memory.lookup (i + k) (Memory.writeBytes i n v m) = some (v.extractLsb' (8 * k) 8) := by
  induction n generalizing i v m k with
  | zero => omega
  | succ n ih =>
    rw [Memory.writeBytes]
    cases k with
    | zero =>
      rw [Memory.lookup_writeBytes_out _ _ _ _ _ (by omega), Memory.lookup_write, if_pos (by omega)]
      congr 1
    | succ k =>
      have := ih (i + 1) (v >>> 8) (Memory.write i (v.setWidth 8) m) k (by omega)
      rw [show i + (k + 1) = i + 1 + k by omega, this]
      congr 1
      ext j hj
      simp only [BitVec.getElem_extractLsb', BitVec.getLsbD_ushiftRight]
      congr 1
      omega

theorem Memory.wf_writeBytes (i n : Nat) (v : Word) (m : Memory) (h : Memory.wf m = true)
    (hi : i + n ≤ Config.imgCap) : Memory.wf (Memory.writeBytes i n v m) = true := by
  induction n generalizing i v m with
  | zero => exact h
  | succ n ih => exact ih _ _ _ (Memory.wf_write _ _ _ h (by omega)) (by omega)

/-! ## The state's image -/

/-- A `MemWrite` leaves every other byte of the image as it was. -/
theorem State.imgByte_memWrite_out (s : State) (i n : Nat) (v : Word) (b : Nat) (h : b < i ∨ i + n ≤ b) :
    (s.memWrite i n v).imgByte b = s.imgByte b := by
  simp [State.imgByte, Memory.lookup_writeBytes_out i n v s.img b h]

/-- A `MemWrite` stores the bytes of its value, the low byte first. -/
theorem State.imgByte_memWrite_in (s : State) (i n : Nat) (v : Word) (k : Nat) (h : k < n) :
    (s.memWrite i n v).imgByte (i + k) = v.extractLsb' (8 * k) 8 := by
  simp [State.imgByte, Memory.lookup_writeBytes_in i n v s.img k h]

/-- `MemRead` reads the offsets i .. i+n-1 and no other. -/
theorem memRead_congr {f g : Nat → Byte} (i n : Nat) (h : ∀ b, i ≤ b → b < i + n → f b = g b) :
    memRead f i n = memRead g i n := by
  induction n generalizing i with
  | zero => rfl
  | succ n ih => rw [memRead, memRead, h i (by omega) (by omega), ih (i + 1) fun b h1 h2 => h b (by omega) (by omega)]

/-- The bits of `MemRead`: bit 8k+j is bit j of the byte at offset i+k (R53). -/
theorem getLsbD_memRead (f : Nat → Byte) (i n j : Nat) (hn : n ≤ 4) :
    (memRead f i n).getLsbD j = (decide (j < 8 * n) && (f (i + j / 8)).getLsbD (j % 8)) := by
  induction n generalizing i j with
  | zero => simp [memRead]
  | succ n ih =>
    simp only [memRead, BitVec.getLsbD_or, BitVec.getLsbD_setWidth, BitVec.getLsbD_shiftLeft, ih (i + 1) (j - 8) (by omega)]
    by_cases hj : j < 8
    · have h0 : j / 8 = 0 := by omega
      have h1 : j % 8 = j := by omega
      simp [hj, h0, h1, show j < 32 by omega, show j < 8 * (n + 1) by omega]
    · have h0 : (f i).getLsbD j = false := BitVec.getLsbD_of_ge _ _ (by omega)
      have h1 : i + 1 + (j - 8) / 8 = i + j / 8 := by omega
      have h2 : (j - 8) % 8 = j % 8 := by omega
      by_cases hb : j < 8 * (n + 1)
      · simp [hj, h0, h1, h2, hb, show j < 32 by omega, show j - 8 < 8 * n by omega]
      · simp [hj, h0, hb, show ¬ j - 8 < 8 * n by omega]

end Sys2Proof.Machine
end

