-- ==== Sys2Proof/Laws/Bytes.lean ====
section
/-! SUPPORT. A word as its bytes: what `MemRead` answers, byte reversal, and the image accesses as one load and one store. -/

namespace Sys2Proof.Machine

/-- The bits of a word written as its four bytes. -/
theorem getLsbD_fourBytes (a b c d : Byte) (i : Nat) :
    (a ++ b ++ c ++ d : Word).getLsbD i =
      if i < 8 then d.getLsbD i else if i < 16 then c.getLsbD (i - 8)
      else if i < 24 then b.getLsbD (i - 16) else a.getLsbD (i - 24) := by
  have h : (a ++ b ++ c ++ d : Word).getLsbD i = BitVec.getLsbD (w := 8 + 8 + 8 + 8) (a ++ b ++ c ++ d) i := rfl
  rw [h]
  simp only [BitVec.getLsbD_append]
  by_cases h1 : i < 8
  · simp [h1]
  by_cases h2 : i < 16
  · simp [h1, h2, show i - 8 < 8 by omega]
  by_cases h3 : i < 24
  · simp [h1, h2, h3, show ¬ i - 8 < 8 by omega, show i - 8 - 8 < 8 by omega]
    congr 1
  · simp [h1, h2, h3, show ¬ i - 8 < 8 by omega, show ¬ i - 8 - 8 < 8 by omega]
    congr 1

/-- `MemRead(i, 4)` is its four bytes, the one at i lowest (20_memory.md R53). -/
theorem memRead_four (f : Nat → Byte) (i : Nat) :
    memRead f i 4 = f (i + 3) ++ f (i + 2) ++ f (i + 1) ++ f i := by
  apply BitVec.eq_of_getLsbD_eq
  intro j hj
  rw [getLsbD_fourBytes, getLsbD_memRead _ _ _ _ (by omega)]
  by_cases h1 : j < 8
  · simp [h1, show j / 8 = 0 by omega, show j % 8 = j by omega, hj]
  by_cases h2 : j < 16
  · simp [h1, h2, show j / 8 = 1 by omega, show j % 8 = j - 8 by omega, hj]
  by_cases h3 : j < 24
  · simp [h1, h2, h3, show j / 8 = 2 by omega, show j % 8 = j - 16 by omega, hj]
  · simp [h1, h2, h3, show j / 8 = 3 by omega, show j % 8 = j - 24 by omega, hj]

/-- Byte reversal, byte by byte (00_scope.md R8). -/
theorem extractLsb'_bswap32 (v : Word) (k : Nat) (hk : k < 4) :
    (bswap32 v).extractLsb' (8 * k) 8 = v.extractLsb' (8 * (3 - k)) 8 := by
  apply BitVec.eq_of_getLsbD_eq
  intro j hj
  simp only [BitVec.getLsbD_extractLsb', bswap32, getLsbD_fourBytes]
  have : k = 0 ∨ k = 1 ∨ k = 2 ∨ k = 3 := by omega
  rcases this with rfl | rfl | rfl | rfl
  · simp [hj]
  · simp [hj, show ¬ 8 + j < 8 by omega, show 8 + j < 16 by omega]
  · simp [hj, show ¬ 16 + j < 8 by omega, show ¬ 16 + j < 16 by omega, show 16 + j < 24 by omega]
  · simp [hj, show ¬ 24 + j < 8 by omega, show ¬ 24 + j < 16 by omega, show ¬ 24 + j < 24 by omega]

/-- An aligned image read answers `MemRead` (42_bus_access.md R160). -/
theorem imgLoad_of_aligned {n : Nat} {off : Offset} (s : State) (h : off.toNat % n = 0) :
    imgLoad n off s = s.answer ⟨s.memRead off.toNat n, false⟩ := by
  simp only [imgLoad, h, if_true, State.answerRead_eq]

/-- A misaligned image read is a bus error (20_memory.md R58). -/
theorem imgLoad_of_misaligned {n : Nat} {off : Offset} (s : State) (h : off.toNat % n ≠ 0) :
    imgLoad n off s = s.answer ⟨0#32, true⟩ := by
  simp only [imgLoad, h, if_false, State.busError_eq]

/-- An aligned image write is `MemWrite` (42_bus_access.md R160). -/
theorem imgStore_of_aligned {n : Nat} {off : Offset} (v : Word) (s : State) (h : off.toNat % n = 0) :
    imgStore n off v s = (s.memWrite off.toNat n v).answer ⟨0#32, false⟩ := by
  simp only [imgStore, h, if_true, State.answerWrite_eq]

/-- A misaligned image write is a bus error and writes nothing (20_memory.md R58). -/
theorem imgStore_of_misaligned {n : Nat} {off : Offset} (v : Word) (s : State) (h : off.toNat % n ≠ 0) :
    imgStore n off v s = s.answer ⟨0#32, true⟩ := by
  simp only [imgStore, h, if_false, State.busError_eq]

/-- What a PATCH leaves in its slot: ACC, most significant byte first (20_memory.md R54). -/
theorem imgByte_patchSlot_in (s : State) (k : Nat) (hk : k < 4) :
    s.patchSlot.imgByte (s.slot + k) = s.acc.extractLsb' (8 * (3 - k)) 8 := by
  rw [← extractLsb'_bswap32 _ _ hk]
  exact State.imgByte_memWrite_in s s.slot 4 (bswap32 s.acc) k hk

/-- What a PATCH leaves outside its slot. -/
theorem imgByte_patchSlot_out (s : State) (a : Nat) (h : a < s.slot ∨ s.slot + 4 ≤ a) :
    s.patchSlot.imgByte a = s.imgByte a :=
  State.imgByte_memWrite_out s s.slot 4 (bswap32 s.acc) a h

end Sys2Proof.Machine
end

