-- ==== Sys2Proof/Laws/Commands.lean ====
section
/-! SUPPORT. What the commands can do, said once: a run of word steps, the loop of RUN as such a run, and the cases of a CMD
write. -/

namespace Sys2Proof.Machine

/-! ## Runs of word steps -/

theorem crcWords_succ_last (img : Nat → Byte) (p : Word) (n i : Nat) (a : Word) :
    crcWords img p (n + 1) i a = wordUpdate (crcWords img p n i a) (memRead img (i + 4 * n) 4) p := by
  induction n generalizing i a with
  | zero => rfl
  | succ n ih =>
    rw [crcWords, ih, crcWords]
    congr 2
    simp only [Config.wordBytes]
    omega

theorem iterate_wordStep_keeps (k : Nat) (s : State) :
    let t := State.wordStep^[k] s
    t.poly = s.poly ∧ t.len = s.len ∧ t.img = s.img ∧ t.draw = s.draw ∧ t.inputs = s.inputs ∧
      t.responses = s.responses ∧ t.errCmd = s.errCmd ∧ t.errLen = s.errLen ∧ t.errRange = s.errRange ∧
      t.errSeq = s.errSeq := by
  induction k with
  | zero => simp
  | succ k ih => simpa [Function.iterate_succ_apply'] using ih

/-- `k` word steps whose words lie below 2^21: ACC, PTR and PATCHED, all else kept. -/
theorem iterate_wordStep_eq (k : Nat) (s : State) (h : s.ptr.toNat + 4 * k < 2 ^ 21) :
    State.wordStep^[k] s = { s with
      acc := crcWords s.imgByte s.poly k s.ptr.toNat s.acc
      ptr := BitVec.ofNat 21 (s.ptr.toNat + 4 * k)
      patched := s.patched && decide (k = 0) } := by
  induction k with
  | zero => simp [crcWords]
  | succ k ih =>
    have hp : (BitVec.ofNat 21 (s.ptr.toNat + 4 * k)).toNat = s.ptr.toNat + 4 * k := by
      rw [BitVec.toNat_ofNat]; omega
    rw [Function.iterate_succ_apply', ih (by omega), crcWords_succ_last]
    simp only [State.wordStep, State.memRead, hp, Config.wordBytes]
    have ha : BitVec.ofNat 21 (s.ptr.toNat + 4 * k) + 4#21 = BitVec.ofNat 21 (s.ptr.toNat + 4 * (k + 1)) := by
      apply BitVec.eq_of_toNat_eq
      rw [BitVec.toNat_add, hp, BitVec.toNat_ofNat, BitVec.toNat_ofNat]
      omega
    simp only [ha]
    simp
    rfl

/-- The loop of RUN is a run of word steps, each taken below the slot; with fuel enough it ends at or above the slot. -/
theorem runLoop_eq_iterate (n : Nat) (s : State) (hs : s.slot < 2 ^ 21 - 4) :
    ∃ k, k ≤ n ∧ runLoop n s = State.wordStep^[k] s ∧ (k = 0 ∨ s.ptr.toNat + 4 * (k - 1) < s.slot) ∧
      (s.slot ≤ s.ptr.toNat + 4 * k ∨ k = n) := by
  induction n generalizing s with
  | zero => exact ⟨0, by simp [runLoop]⟩
  | succ n ih =>
    unfold runLoop
    split
    · next h =>
      obtain ⟨k, hk, he, h1, h2⟩ := ih s.wordStep (by simpa using hs)
      have hp : s.wordStep.ptr.toNat = s.ptr.toNat + 4 := by
        simp only [State.wordStep_ptr, BitVec.toNat_add]
        norm_num
        omega
      rw [hp] at h1 h2
      simp only [State.slot_wordStep] at h1 h2
      exact ⟨k + 1, by omega, by rw [he, Function.iterate_succ_apply], by omega, by omega⟩
    · next h => exact ⟨0, by simp, rfl, by simp, by omega⟩

/-- LENOK in numbers (10_state.md R33). -/
theorem State.lenOk_iff (s : State) :
    s.lenOk = true ↔ s.len.toNat % 4 = 0 ∧ 4 ≤ s.len.toNat ∧ s.len.toNat ≤ 0x100000 := by
  simp only [State.lenOk, Bool.and_eq_true, beq_iff_eq, decide_eq_true_eq, and_assoc]
  rfl

/-- A RUN whose checks pass performs the word steps from PTR up to the slot (R124). -/
theorem cmdRun_of_ok (s : State) (h : s.lenOk = true) (hp : s.ptr.toNat ≤ s.slot) :
    ∃ k, cmdRun s = State.wordStep^[k] s ∧ (k = 0 ∨ s.ptr.toNat + 4 * (k - 1) < s.slot) ∧
      s.slot ≤ s.ptr.toNat + 4 * k ∧ s.ptr.toNat + 4 * k < 2 ^ 21 := by
  have hl := (State.lenOk_iff s).1 h
  have hslot : s.slot = s.len.toNat - 4 := rfl
  obtain ⟨k, hk, he, h1, h2⟩ := runLoop_eq_iterate s.len.toNat s (by omega)
  refine ⟨k, ?_, h1, by omega, by omega⟩
  rw [cmdRun, h, he]
  simp [show ¬ s.ptr.toNat > s.slot by omega]

/-- A RUN whose checks pass, where PTR is a multiple of 4, as 10_state.md R38 (a) has it. -/
theorem cmdRun_of_aligned (s : State) (h : s.lenOk = true) (ha : s.ptr.toNat % 4 = 0) (hp : s.ptr.toNat ≤ s.slot) :
    cmdRun s = State.wordStep^[(s.slot - s.ptr.toNat) / 4] s := by
  obtain ⟨k, he, h1, h2, h3⟩ := cmdRun_of_ok s h hp
  have hl := (State.lenOk_iff s).1 h
  have hslot : s.slot = s.len.toNat - 4 := rfl
  rw [he, show k = (s.slot - s.ptr.toNat) / 4 by omega]

/-- Word steps read the image and write none of it. -/
theorem imgByte_iterate_wordStep (k : Nat) (s : State) : (State.wordStep^[k] s).imgByte = s.imgByte := by
  have h := iterate_wordStep_keeps k s
  simp only at h
  funext a
  unfold State.imgByte
  rw [h.2.2.1, h.2.2.2.1]

/-! ## What a command can do -/

/-- A command word issued: nothing, an INIT, one or more word steps, a PATCH, or one error bit (R123). -/
theorem issueCommand_cases (v : Word) (s : State) :
    issueCommand v s = s ∨
    (decodeCommand v = .ok .init ∧ issueCommand v s = cmdInit s) ∨
    (∃ k, 1 ≤ k ∧ (decodeCommand v = .ok .step ∧ k = 1 ∨ decodeCommand v = .ok .run) ∧ s.lenOk = true ∧
      issueCommand v s = State.wordStep^[k] s ∧ s.ptr.toNat + 4 * (k - 1) < s.slot) ∨
    (decodeCommand v = .ok .patch ∧ s.atEnd = true ∧ issueCommand v s = s.patchSlot) ∨
    ((∃ e, decodeCommand v = .error e) ∧ issueCommand v s = s.raiseErrCmd) ∨
    ((∃ c, decodeCommand v = .ok c) ∧ s.lenOk = false ∧ issueCommand v s = s.raiseErrLen) ∨
    (s.lenOk = true ∧ (decodeCommand v = .ok .step ∧ s.slot < s.ptr.toNat + 4 ∨
        decodeCommand v = .ok .run ∧ s.slot < s.ptr.toNat) ∧ issueCommand v s = s.raiseErrRange) ∨
    (s.lenOk = true ∧ decodeCommand v = .ok .patch ∧ s.ptr.toNat ≠ s.slot ∧ issueCommand v s = s.raiseErrSeq) := by
  unfold issueCommand
  cases h : decodeCommand v with
  | error e => simp [cmdReserved]
  | ok c =>
    cases hl : s.lenOk with
    | false => cases c <;> simp [cmdNop, cmdStep, cmdRun, cmdPatch, hl]
    | true =>
      cases c with
      | nop => simp [cmdNop]
      | init => simp
      | step =>
        by_cases hp : s.slot < s.ptr.toNat + 4
        · simp [cmdStep, hl, Config.wordBytes, hp]
        · refine .inr (.inr (.inl ⟨1, by simp, by simp, rfl, ?_, by omega⟩))
          simp [cmdStep, hl, Config.wordBytes, hp]
      | run =>
        by_cases hp : s.slot < s.ptr.toNat
        · simp [cmdRun, hl, hp]
        · obtain ⟨k, he, h1, h2, h3⟩ := cmdRun_of_ok s hl (by omega)
          by_cases hk : k = 0
          · subst hk; exact .inl (by simpa using he)
          · exact .inr (.inr (.inl ⟨k, by omega, by simp, rfl, he, by omega⟩))
      | patch =>
        by_cases hp : s.ptr.toNat = s.slot <;> simp [cmdPatch, hl, hp, State.atEnd]

/-- What no command changes: POLY, LEN, the host's side of the port and the draw. -/
theorem issueCommand_keeps (v : Word) (s : State) :
    (issueCommand v s).poly = s.poly ∧ (issueCommand v s).len = s.len ∧ (issueCommand v s).draw = s.draw ∧
      (issueCommand v s).inputs = s.inputs ∧ (issueCommand v s).responses = s.responses := by
  rcases issueCommand_cases v s with h | ⟨_, h⟩ | ⟨k, _, _, _, h, _⟩ | ⟨_, _, h⟩ | ⟨_, h⟩ | ⟨_, _, h⟩ | ⟨_, _, h⟩ |
    ⟨_, _, _, h⟩ <;> rw [h]
  · simp
  · simp [cmdInit]
  · have := iterate_wordStep_keeps k s
    simp_all
  all_goals simp

end Sys2Proof.Machine
end

