-- ==== Sys2Proof/Laws/Decode.lean ====
section
/-! SUPPORT. The descriptor's bits and fields, how a descriptor is rebuilt from them, and what a descriptor can decode to. -/

namespace Sys2Proof

/-- The bits of a descriptor made from its fields (30_encoding.md R81). -/
theorem getLsbD_accessWord (img w : Bool) (sz : BitVec 2) (off : Offset) (i : Nat) :
    (accessWord img w sz off).getLsbD i =
      if i < 20 then off.getLsbD i else if i = 20 then img else if i = 21 then w
      else if i < 24 then sz.getLsbD (i - 22) else false := by
  have h : (accessWord img w sz off).getLsbD i =
    BitVec.getLsbD (w := 8 + 2 + 1 + 1 + 20) (0#8 ++ sz ++ BitVec.ofBool w ++ BitVec.ofBool img ++ off) i := rfl
  rw [h]
  simp only [BitVec.getLsbD_append, BitVec.getLsbD_ofBool]
  by_cases h1 : i < 20
  · simp [h1]
  by_cases h2 : i = 20
  · subst h2; simp
  by_cases h3 : i = 21
  · subst h3; simp
  by_cases h4 : i < 24
  · have : i = 22 ∨ i = 23 := by omega
    rcases this with rfl | rfl <;> simp
  · simp [h1, h2, h3, h4, show ¬ i - 20 < 1 by omega, show ¬ i - 20 - 1 < 1 by omega, show ¬ i - 20 - 1 - 1 < 2 by omega]

@[simp] theorem descOffset_accessWord (img w : Bool) (sz : BitVec 2) (off : Offset) :
    descOffset (accessWord img w sz off) = off := by
  apply BitVec.eq_of_getLsbD_eq
  intro i h
  simp [descOffset, getLsbD_accessWord, h]

@[simp] theorem descImg_accessWord (img w : Bool) (sz : BitVec 2) (off : Offset) :
    descImg (accessWord img w sz off) = img := by
  simp only [descImg, getLsbD_accessWord]
  simp

@[simp] theorem descWrite_accessWord (img w : Bool) (sz : BitVec 2) (off : Offset) :
    descWrite (accessWord img w sz off) = w := by
  simp only [descWrite, getLsbD_accessWord]
  simp

@[simp] theorem descSize_accessWord (img w : Bool) (sz : BitVec 2) (off : Offset) :
    descSize (accessWord img w sz off) = sz := by
  apply BitVec.eq_of_getLsbD_eq
  intro i h
  have : i = 0 ∨ i = 1 := by omega
  rcases this with rfl | rfl <;> simp only [descSize, getLsbD_accessWord, BitVec.getLsbD_extractLsb'] <;> simp

@[simp] theorem descRsvd_accessWord (img w : Bool) (sz : BitVec 2) (off : Offset) :
    descRsvd (accessWord img w sz off) = 0#8 := by
  apply BitVec.eq_of_getLsbD_eq
  intro i h
  simp only [descRsvd, getLsbD_accessWord, BitVec.getLsbD_extractLsb']
  simp [show ¬ 24 + i < 20 by omega, show ¬ 24 + i = 20 by omega, show ¬ 24 + i = 21 by omega]

/-- A descriptor with RSVD = 0 is made of its other fields. -/
theorem eq_accessWord_of_descRsvd {d : Word} (h : descRsvd d = 0#8) :
    d = accessWord (descImg d) (descWrite d) (descSize d) (descOffset d) := by
  have key : ∀ i, i < 8 → d.getLsbD (24 + i) = false := by
    intro i hi
    have := congrArg (fun v => v.getLsbD i) h
    simpa [descRsvd, hi] using this
  apply BitVec.eq_of_getLsbD_eq
  intro i hi
  rw [getLsbD_accessWord]
  simp only [descImg, descWrite, descSize, descOffset, BitVec.getLsbD_extractLsb']
  by_cases h1 : i < 20
  · simp [h1]
  by_cases h2 : i = 20
  · subst h2; simp
  by_cases h3 : i = 21
  · subst h3; simp
  by_cases h4 : i < 24
  · have : i = 22 ∨ i = 23 := by omega
    rcases this with rfl | rfl <;> simp
  · have := key (i - 24) (by omega)
    rw [show 24 + (i - 24) = i by omega] at this
    simp [h1, h2, h3, h4, this]

/-- A descriptor of an image access, or of a 32-bit register access, is no command word. -/
theorem decodeCommand_accessWord (img w : Bool) (sz : BitVec 2) (off : Offset) (h : img = true ∨ sz = 2#2) :
    decodeCommand (accessWord img w sz off) = .error .reservedBits := by
  have hb : cmdRsvd (accessWord img w sz off) ≠ 0#28 := by
    intro h0
    rcases h with rfl | rfl
    · have := congrArg (fun v => v.getLsbD 16) h0
      simp only [cmdRsvd, getLsbD_accessWord, BitVec.getLsbD_extractLsb'] at this
      simp at this
    · have := congrArg (fun v => v.getLsbD 19) h0
      simp only [cmdRsvd, getLsbD_accessWord, BitVec.getLsbD_extractLsb'] at this
      simp at this
  simp [decodeCommand, hb]

/-- A register's offset decodes to the register. -/
theorem decodeReg_offset (r : Reg) : decodeReg r.offset = .ok r := by
  cases r with
  | rsvd j => revert j; decide
  | _ => decide

/-- The register an offset decodes to is the one at that offset. -/
theorem eq_offset_of_decodeReg {off : Offset} {r : Reg} (h : decodeReg off = .ok r) : off = r.offset := by
  unfold decodeReg at h
  split at h
  · cases h
  split at h
  · cases h
  next h1 h2 =>
  repeat (split at h; (· cases h; assumption))
  cases h
  simp only [Config.regWindow] at h2
  have e : ∀ n, off.toNat = n → off = BitVec.ofNat 20 n := fun n hn => by rw [← hn]; simp
  have : off.toNat = 0x20 ∨ off.toNat = 0x24 ∨ off.toNat = 0x28 ∨ off.toNat = 0x2c ∨ off.toNat = 0x30 ∨
      off.toNat = 0x34 ∨ off.toNat = 0x38 ∨ off.toNat = 0x3c := by
    simp only [BitVec.toNat_eq, BitVec.toNat_ofNat] at *
    omega
  rcases this with h | h | h | h | h | h | h | h <;> (rw [e _ h]; decide)

/-- What a descriptor can decode to (30_encoding.md R85). -/
theorem decodeAccess_cases {d v : Word} {i : Instr} (h : decodeAccess d v = .ok i) :
    (∃ r : Reg, i = r.readInstr ∨ i = r.writeInstr v) ∨
    ∃ off, i = .lb off ∨ i = .lh off ∨ i = .lw off ∨ i = .sb off v ∨ i = .sh off v ∨ i = .sw off v := by
  unfold decodeAccess decodeImg at h
  repeat (split at h; (· cases h))
  split at h
  · refine .inr ⟨descOffset d, ?_⟩
    split at h
    · cases h
      split <;> simp
    split at h
    · split at h
      · cases h
        split <;> simp
      · cases h
    split at h
    · split at h
      · cases h
        split <;> simp
      · cases h
    · cases h
  · split at h
    · cases h
    split at h
    · next r _ =>
      refine .inl ⟨r, ?_⟩
      cases hw : descWrite d <;> simp only [hw] at h <;> cases h <;> simp
    · cases h

end Sys2Proof
end

