-- ==== Sys2Proof/Laws/PerInstr.lean ====
section
/-! SUPPORT. Families of statements made instruction by instruction. -/

namespace Sys2Proof.Laws.EncodedWords

/-- An instruction has a fixed number of words (30_encoding.md R87): two where its first word is a write's descriptor, bit 21
(R81), and one otherwise. A command word has bit 21 clear. -/
def Statement (i : Instr) : Prop :=
  ∃ first rest, encode i = first :: rest ∧ rest.length = (first.getLsbD 21).toNat

/-- The two sizes, for an instruction whose first word is known. -/
theorem of_words {i : Instr} (first : Word) (rest : List Word) (h : encode i = first :: rest)
    (hb : (first.getLsbD 21).toNat = rest.length) : Statement i := ⟨first, rest, h, hb.symm⟩

theorem of_access (i : Instr) (img w : Bool) (size : BitVec 2) (off : Offset) (rest : List Word)
    (h : encode i = accessWord img w size off :: rest) (hb : w.toNat = rest.length) : Statement i :=
  of_words _ rest h (by rw [getLsbD_accessWord]; simpa using hb)

theorem nop : Statement .nop := of_words _ _ rfl (by decide)
theorem init : Statement .init := of_words _ _ rfl (by decide)
theorem step : Statement .step := of_words _ _ rfl (by decide)
theorem run : Statement .run := of_words _ _ rfl (by decide)
theorem patch : Statement .patch := of_words _ _ rfl (by decide)
theorem rdCmd : Statement .rdCmd := of_access _ _ _ _ _ _ rfl rfl
theorem wrCmd (v : Word) : Statement (.wrCmd v) := of_access _ _ _ _ _ _ rfl rfl
theorem rdStatus : Statement .rdStatus := of_access _ _ _ _ _ _ rfl rfl
theorem wrStatus (v : Word) : Statement (.wrStatus v) := of_access _ _ _ _ _ _ rfl rfl
theorem rdPoly : Statement .rdPoly := of_access _ _ _ _ _ _ rfl rfl
theorem wrPoly (v : Word) : Statement (.wrPoly v) := of_access _ _ _ _ _ _ rfl rfl
theorem rdLen : Statement .rdLen := of_access _ _ _ _ _ _ rfl rfl
theorem wrLen (v : Word) : Statement (.wrLen v) := of_access _ _ _ _ _ _ rfl rfl
theorem rdPtr : Statement .rdPtr := of_access _ _ _ _ _ _ rfl rfl
theorem wrPtr (v : Word) : Statement (.wrPtr v) := of_access _ _ _ _ _ _ rfl rfl
theorem rdAcc : Statement .rdAcc := of_access _ _ _ _ _ _ rfl rfl
theorem wrAcc (v : Word) : Statement (.wrAcc v) := of_access _ _ _ _ _ _ rfl rfl
theorem rdResult : Statement .rdResult := of_access _ _ _ _ _ _ rfl rfl
theorem wrResult (v : Word) : Statement (.wrResult v) := of_access _ _ _ _ _ _ rfl rfl
theorem rdSeed : Statement .rdSeed := of_access _ _ _ _ _ _ rfl rfl
theorem wrSeed (v : Word) : Statement (.wrSeed v) := of_access _ _ _ _ _ _ rfl rfl
theorem rdRsvd (j : BitVec 3) : Statement (.rdRsvd j) := of_access _ _ _ _ _ _ rfl rfl
theorem wrRsvd (j : BitVec 3) (v : Word) : Statement (.wrRsvd j v) := of_access _ _ _ _ _ _ rfl rfl
theorem lb (off : Offset) : Statement (.lb off) := of_access _ _ _ _ _ _ rfl rfl
theorem lh (off : Offset) : Statement (.lh off) := of_access _ _ _ _ _ _ rfl rfl
theorem lw (off : Offset) : Statement (.lw off) := of_access _ _ _ _ _ _ rfl rfl
theorem sb (off : Offset) (v : Word) : Statement (.sb off v) := of_access _ _ _ _ _ _ rfl rfl
theorem sh (off : Offset) (v : Word) : Statement (.sh off v) := of_access _ _ _ _ _ _ rfl rfl
theorem sw (off : Offset) (v : Word) : Statement (.sw off v) := of_access _ _ _ _ _ _ rfl rfl

end Sys2Proof.Laws.EncodedWords
end

