-- ==== Sys2Proof/Laws/Step.lean ====
section
/-! SUPPORT. What one step can do, said once: idle, a reset, a bus error, or one instruction; and what an instruction can do,
by kind. -/

namespace Sys2Proof.Machine

/-- Every instruction answers a next state. -/
theorem exec_next (i : Instr) (s : State) : ∃ t, exec i s = .next t := by cases i <;> exact ⟨_, rfl⟩

/-- What an instruction leaves: a response alone, a command's effect and a response, a new POLY or LEN and a response, or an
aligned store and a response. -/
theorem exec_cases {i : Instr} {s t : State} (h : exec i s = .next t) :
    (∃ r, t = s.answer r) ∨
    (∃ c : Command, (i = c.toInstr ∨ i = .wrCmd c.word) ∧ t = (issueCommand c.word s).answerWrite) ∨
    (∃ v, i = .wrCmd v ∧ t = (issueCommand v s).answerWrite) ∨
    (∃ v, i = .wrPoly v ∧ t = { s with poly := v }.answerWrite) ∨
    (∃ v, i = .wrLen v ∧ t = { s with len := lenOperand v }.answerWrite) ∨
    (∃ off v n, (i = .sb off v ∧ n = 1 ∨ i = .sh off v ∧ n = 2 ∨ i = .sw off v ∧ n = 4) ∧ off.toNat % n = 0 ∧
      t = (s.memWrite off.toNat n v).answerWrite) := by
  cases i
  case nop => exact .inr (.inl ⟨.nop, .inl rfl, by cases h; rfl⟩)
  case init => exact .inr (.inl ⟨.init, .inl rfl, by cases h; rfl⟩)
  case step => exact .inr (.inl ⟨.step, .inl rfl, by cases h; rfl⟩)
  case run => exact .inr (.inl ⟨.run, .inl rfl, by cases h; rfl⟩)
  case patch => exact .inr (.inl ⟨.patch, .inl rfl, by cases h; rfl⟩)
  case wrCmd v => exact .inr (.inr (.inl ⟨v, rfl, by cases h; rfl⟩))
  case wrPoly v => exact .inr (.inr (.inr (.inl ⟨v, rfl, by cases h; rfl⟩)))
  case wrLen v => exact .inr (.inr (.inr (.inr (.inl ⟨v, rfl, by cases h; rfl⟩))))
  case sb off v => exact .inr (.inr (.inr (.inr (.inr ⟨off, v, 1, by simp, Nat.mod_one _, by
    cases h; simp [imgStore, Nat.mod_one]⟩))))
  case sh off v =>
    by_cases hm : off.toNat % 2 = 0
    · exact .inr (.inr (.inr (.inr (.inr ⟨off, v, 2, by simp, hm, by cases h; simp [imgStore, hm]⟩))))
    · exact .inl ⟨_, by cases h; simp only [imgStore, hm, if_false]; rfl⟩
  case sw off v =>
    by_cases hm : off.toNat % 4 = 0
    · exact .inr (.inr (.inr (.inr (.inr ⟨off, v, 4, by simp, hm, by cases h; simp [imgStore, hm]⟩))))
    · exact .inl ⟨_, by cases h; simp only [imgStore, hm, if_false]; rfl⟩
  case lh off =>
    by_cases hm : off.toNat % 2 = 0
    · exact .inl ⟨_, by cases h; simp only [imgLoad, hm, if_true]; rfl⟩
    · exact .inl ⟨_, by cases h; simp only [imgLoad, hm, if_false]; rfl⟩
  case lw off =>
    by_cases hm : off.toNat % 4 = 0
    · exact .inl ⟨_, by cases h; simp only [imgLoad, hm, if_true]; rfl⟩
    · exact .inl ⟨_, by cases h; simp only [imgLoad, hm, if_false]; rfl⟩
  case lb off => exact .inl ⟨_, by cases h; simp only [imgLoad, Nat.mod_one, if_true]; rfl⟩
  all_goals exact .inl ⟨_, by cases h; rfl⟩

/-- The port delivers no bare command: a decoded transaction is a command only as a CMD write. -/
theorem decodeAccess_ne_command {d v : Word} {i : Instr} (h : decodeAccess d v = .ok i) (c : Command) :
    i ≠ c.toInstr := by
  rcases decodeAccess_cases h with ⟨r, rfl | rfl⟩ | ⟨off, rfl | rfl | rfl | rfl | rfl | rfl⟩
  case inl.inl => cases r <;> cases c <;> simp [Reg.readInstr, Command.toInstr]
  case inl.inr => cases r <;> cases c <;> simp [Reg.writeInstr, Command.toInstr]
  all_goals cases c <;> simp [Command.toInstr]

/-- What a step can do. -/
theorem step_cases {s t : State} (h : step s = .next t) :
    (s.inputs = [] ∧ t = s) ∨
    (∃ rest, s.inputs = .reset :: rest ∧ t = s.dropInput.resetInput) ∨
    (∃ r rest e, s.inputs = .access r :: rest ∧ decodeAccess r.desc r.wdata = .error e ∧ t = s.dropInput.busError) ∨
    (∃ r rest i, s.inputs = .access r :: rest ∧ decodeAccess r.desc r.wdata = .ok i ∧ s.nextInstr = some i ∧
      exec i s.dropInput = .next t) := by
  unfold step at h
  split at h
  · next hi => cases h; exact .inl ⟨hi, rfl⟩
  · next rest hi => cases h; exact .inr (.inl ⟨rest, hi, rfl⟩)
  · next r rest hi =>
    split at h
    · next i hd => exact .inr (.inr (.inr ⟨r, rest, i, hi, hd, by simp [State.nextInstr, hi, hd, Except.toOption], h⟩))
    · next e hd => cases h; exact .inr (.inr (.inl ⟨r, rest, e, hi, hd, rfl⟩))

end Sys2Proof.Machine
end

