-- ==== Sys2Proof/Tests/Slice0.lean ====
section
/-! SUPPORT. Tests: ill-formed terms refused, words written out from the encodings of spec/, single steps from the vectors of
95_test_vectors.md, and a witness for the hypotheses of each statement that has some. -/

namespace Sys2Proof.Tests

open Sys2Proof.Machine

/-! ## Well-formedness (30_encoding.md R85) -/

theorem test_wf_refuses_lh_at_odd_offset : (Instr.lh 0x00001#20).wf = false := by decide
theorem test_wf_refuses_lw_at_half_offset : (Instr.lw 0x00002#20).wf = false := by decide
theorem test_wf_refuses_sh_at_odd_offset : (Instr.sh 0xFFFFF#20 0#32).wf = false := by decide
theorem test_wf_refuses_sw_at_half_offset : (Instr.sw 0xFFFFE#20 0#32).wf = false := by decide

/-! ## Decoding: each constructor's word, written out from R81, R83 and R85 -/

theorem test_decode_commands :
    decode [0x00000000#32] = some .nop ∧ decode [0x00000001#32] = some .init ∧ decode [0x00000002#32] = some .step ∧
    decode [0x00000003#32] = some .run ∧ decode [0x00000004#32] = some .patch := by decide

theorem test_decode_register_reads :
    decode [0x00800000#32] = some .rdCmd ∧ decode [0x00800004#32] = some .rdStatus ∧
    decode [0x00800008#32] = some .rdPoly ∧ decode [0x0080000C#32] = some .rdLen ∧
    decode [0x00800010#32] = some .rdPtr ∧ decode [0x00800014#32] = some .rdAcc ∧
    decode [0x00800018#32] = some .rdResult ∧ decode [0x0080001C#32] = some .rdSeed ∧
    decode [0x00800020#32] = some (.rdRsvd 0#3) ∧ decode [0x0080003C#32] = some (.rdRsvd 7#3) := by decide

theorem test_decode_register_writes :
    decode [0x00A00000#32, 9#32] = some (.wrCmd 9#32) ∧ decode [0x00A00004#32, 9#32] = some (.wrStatus 9#32) ∧
    decode [0x00A00008#32, 9#32] = some (.wrPoly 9#32) ∧ decode [0x00A0000C#32, 9#32] = some (.wrLen 9#32) ∧
    decode [0x00A00010#32, 9#32] = some (.wrPtr 9#32) ∧ decode [0x00A00014#32, 9#32] = some (.wrAcc 9#32) ∧
    decode [0x00A00018#32, 9#32] = some (.wrResult 9#32) ∧ decode [0x00A0001C#32, 9#32] = some (.wrSeed 9#32) ∧
    decode [0x00A00024#32, 9#32] = some (.wrRsvd 1#3 9#32) := by decide

theorem test_decode_image_accesses :
    decode [0x00100001#32] = some (.lb 0x00001#20) ∧ decode [0x001FFFFF#32] = some (.lb 0xFFFFF#20) ∧
    decode [0x00500002#32] = some (.lh 0x00002#20) ∧ decode [0x00900004#32] = some (.lw 0x00004#20) ∧
    decode [0x00300005#32, 0x1AB#32] = some (.sb 0x00005#20 0x1AB#32) ∧
    decode [0x00700002#32, 0xBEEF#32] = some (.sh 0x00002#20 0xBEEF#32) ∧
    decode [0x00B00010#32, 0x44332211#32] = some (.sw 0x00010#20 0x44332211#32) := by decide

/-- T-BE: each bus-error descriptor, with the case of R86 it falls under. -/
theorem test_bus_error_descriptors :
    decodeAccess 0x01800004#32 0#32 = .error .reservedBits ∧ decodeAccess 0x00C00000#32 0#32 = .error .reservedSize ∧
    decodeAccess 0x00F00000#32 0x12345678#32 = .error .reservedSize ∧ decodeAccess 0x00000004#32 0#32 = .error .regSize ∧
    decodeAccess 0x00400004#32 0#32 = .error .regSize ∧ decodeAccess 0x00800006#32 0#32 = .error .regMisaligned ∧
    decodeAccess 0x00800040#32 0#32 = .error .regOutside ∧ decodeAccess 0x00A80000#32 1#32 = .error .regOutside ∧
    decodeAccess 0x00900002#32 0#32 = .error .imgMisaligned ∧
    decodeAccess 0x00700001#32 0xBEEF#32 = .error .imgMisaligned ∧
    decodeAccess 0x00B00002#32 1#32 = .error .imgMisaligned := by decide

/-- R126: the reserved bits are looked at before OP. -/
theorem test_reserved_command_words :
    decodeCommand 0x00000005#32 = .error .reservedOp ∧ decodeCommand 0x0000000F#32 = .error .reservedOp ∧
    decodeCommand 0x00000011#32 = .error .reservedBits ∧ decodeCommand 0xFFFFFFFF#32 = .error .reservedBits ∧
    decodeCommand 0x80000001#32 = .error .reservedBits := by decide

/-- The numbering of spec/opcode_table.json: the wdata's bits follow the descriptor's, and are 0 above nbits. -/
theorem test_table_words :
    decodeTableWord 32 0x00000004 = some .patch ∧ decodeTableWord 32 0x00A00008 = some (.wrPoly 0#32) ∧
    decodeTableWord 64 0x1EDC6F4100A00008 = some (.wrPoly 0x1EDC6F41#32) ∧
    decodeTableWord 32 0x00700001 = none := by decide

/-! ## Single steps -/

/-- An image 01 02 03 04, a length and a cursor. -/
def stateAt (len ptr : Nat) : State :=
  { State.reset with
    len := BitVec.ofNat 21 len
    ptr := BitVec.ofNat 21 ptr
    img := [(0, 0x01#8), (1, 0x02#8), (2, 0x03#8), (3, 0x04#8)] }

/-- The host's next transaction. -/
def sending (d v : Word) (s : State) : State := { s with inputs := [.access ⟨d, v⟩] }

/-- The state an outcome answers, and `s` where it answers none. -/
def orElse (s : State) : Host.Outcome State Fault Refusal → State
  | .next t => t
  | .fault _ => s
  | .refused _ => s

/-- The state after an instruction. -/
def after (i : Instr) (s : State) : State := orElse s (exec i s)

/-- The response of an instruction. -/
def answerOf (i : Instr) (s : State) : Option Response := (after i s).responses.head?

/-- T-C1: STATUS = 0x200 before and after. -/
theorem test_nop_clears_nothing :
    (after .nop { State.reset with errLen := true }).statusWord = 0x00000200#32 := by decide

/-- T-C2a. -/
theorem test_init_abandons_a_computation :
    let s := { stateAt 0x18 0x10 with acc := 0x12345678#32, patched := true, errRange := true }
    s.statusWord = 0x406#32 ∧ (after .init s).statusWord = 0x004#32 ∧ (after .init s).acc = 0xFFFFFFFF#32 ∧
      (after .init s).ptr = 0#21 := by decide

/-- T-C2b. -/
theorem test_init_with_the_slot_alone_is_at_end : (after .init (stateAt 4 8)).statusWord = 0x005#32 := by decide

/-- T-C3a. -/
theorem test_step_takes_a_little_endian_word :
    (after .step (stateAt 8 0)).acc = 0x1DABE74F#32 ∧ (after .step (stateAt 8 0)).ptr = 4#21 ∧
      (after .step (stateAt 8 0)).statusWord = 0x005#32 := by decide +kernel

/-- T-C3b, T-C3d: no word left; a length that fails LENOK is reported before it. -/
theorem test_step_errors :
    (after .step (stateAt 8 4)).statusWord = 0x405#32 ∧ (after .step (stateAt 6 4)).statusWord = 0x200#32 := by decide

/-- The image of T-E2, before its slot. -/
def gapImage : Memory :=
  [(0, 0x11#8), (1, 0x22#8), (2, 0xFF#8), (3, 0xFF#8), (4, 0xFF#8), (5, 0xFF#8), (6, 0xFF#8), (7, 0xFF#8)] ++
  [(8, 0xFF#8), (9, 0xFF#8), (10, 0xFF#8), (11, 0xFF#8), (12, 0xFF#8), (13, 0xFF#8), (14, 0xFF#8), (15, 0xFF#8)]

/-- T-C4a. -/
theorem test_run_processes_the_whole_image :
    let t := after .run { stateAt 20 0 with img := gapImage }
    t.acc = 0x41CB6A06#32 ∧ t.ptr = 16#21 ∧ t.statusWord = 0x005#32 := by decide +kernel

/-- T-C4e. -/
theorem test_run_past_the_slot : (after .run (stateAt 8 8)).statusWord = 0x404#32 := by decide

/-- T-C5a. -/
theorem test_patch_writes_most_significant_byte_first :
    let t := after .patch { stateAt 8 4 with acc := 0x1DABE74F#32 }
    t.img.drop 4 = [(4, 0x1D#8), (5, 0xAB#8), (6, 0xE7#8), (7, 0x4F#8)] ∧ t.statusWord = 0x007#32 := by decide

/-- T-C5c. -/
theorem test_patch_too_early :
    (after .patch (stateAt 8 0)).statusWord = 0x804#32 ∧ (after .patch (stateAt 8 0)).img = (stateAt 8 0).img := by decide

/-- T-C6c: INIT is not performed. -/
theorem test_wr_cmd_reserved :
    (after (.wrCmd 0x11#32) (stateAt 12 4)).statusWord = 0x104#32 ∧ (after (.wrCmd 0x11#32) (stateAt 12 4)).ptr = 4#21 := by
  decide

theorem test_wr_cmd_issues_init : (after (.wrCmd 1#32) (stateAt 12 4)).ptr = 0#21 := by decide

/-- T-B1, T-B4, T-B6, T-B8, T-B10, T-B12, T-B14, T-B16. -/
theorem test_register_reads :
    let s := { stateAt 0x1FFFFF 4 with acc := 0x1DABE74F#32 }
    answerOf .rdCmd s = some ⟨0#32, false⟩ ∧ answerOf .rdPoly s = some ⟨0x04C11DB7#32, false⟩ ∧
    answerOf .rdLen s = some ⟨0x001FFFFF#32, false⟩ ∧ answerOf .rdPtr s = some ⟨4#32, false⟩ ∧
    answerOf .rdAcc s = some ⟨0x1DABE74F#32, false⟩ ∧ answerOf .rdResult s = some ⟨0x4FE7AB1D#32, false⟩ ∧
    answerOf .rdSeed s = some ⟨0xFFFFFFFF#32, false⟩ ∧ answerOf (.rdRsvd 7#3) s = some ⟨0#32, false⟩ := by decide

/-- R143: every STATUS bit, read. -/
theorem test_rd_status :
    answerOf .rdStatus { stateAt 8 4 with patched := true, errCmd := true, errLen := true, errRange := true, errSeq := true } =
      some ⟨0x00000F07#32, false⟩ := by decide

/-- T-B3, T-B9, T-B11, T-B13, T-B15, T-B17: the write is answered and ignored. -/
theorem test_ignored_writes :
    let s := { stateAt 8 4 with errLen := true, acc := 0#32 }
    let t := { s with responses := [⟨0#32, false⟩] }
    after (.wrStatus 0xFFFFFFFF#32) s = t ∧ after (.wrPtr 0#32) s = t ∧ after (.wrAcc 0x12345678#32) s = t ∧
    after (.wrResult 1#32) s = t ∧ after (.wrSeed 0#32) s = t ∧ after (.wrRsvd 1#3 0xFFFFFFFF#32) s = t := by decide

/-- T-B5, T-B7. -/
theorem test_poly_and_len_writes :
    (after (.wrPoly 0x1EDC6F41#32) State.reset).poly = 0x1EDC6F41#32 ∧
    (after (.wrLen 0x00200010#32) State.reset).len = 0x10#21 := by decide

/-- T-L: the lengths at the edges of LENOK. -/
theorem test_lenok :
    (stateAt 0 0).lenOk = false ∧ (stateAt 2 0).lenOk = false ∧ (stateAt 4 0).lenOk = true ∧ (stateAt 18 0).lenOk = false ∧
    (stateAt 0x0FFFFC 0).lenOk = true ∧ (stateAt 0x100000 0).lenOk = true ∧ (stateAt 0x100004 0).lenOk = false ∧
    (stateAt 0x1FFFFF 0).lenOk = false := by decide

/-- T-B18, T-B19, T-B20, over the bytes 01 02 03 04. -/
theorem test_image_reads :
    answerOf (.lb 1#20) (stateAt 0 0) = some ⟨0x02#32, false⟩ ∧ answerOf (.lh 2#20) (stateAt 0 0) = some ⟨0x0403#32, false⟩ ∧
    answerOf (.lw 0#20) (stateAt 0 0) = some ⟨0x04030201#32, false⟩ := by decide

/-- T-B21, T-B22, T-B23. -/
theorem test_image_writes :
    (after (.sb 5#20 0x1AB#32) State.reset).img = [(5, 0xAB#8)] ∧
    (after (.sh 2#20 0xBEEF#32) State.reset).img = [(2, 0xEF#8), (3, 0xBE#8)] ∧
    (after (.sw 0#20 0x04030201#32) State.reset).img = [(0, 0x01#8), (1, 0x02#8), (2, 0x03#8), (3, 0x04#8)] := by decide

/-- T-BE: a bus error is answered and changes nothing. -/
theorem test_step_of_a_bus_error :
    orElse State.reset (step (sending 0x00A80000#32 1#32 (stateAt 8 4))) =
      { stateAt 8 4 with responses := [⟨0#32, true⟩] } := by decide

/-- R200: the reset event. -/
theorem test_step_of_a_reset :
    let t := orElse State.reset (step { stateAt 8 4 with inputs := [.reset], acc := 0#32, errSeq := true })
    t.len = 0#21 ∧ t.ptr = 0#21 ∧ t.acc = 0xFFFFFFFF#32 ∧ t.statusWord = 0#32 ∧ t.img = [] := by decide

/-- T-R and T-W. -/
theorem test_crc_arithmetic :
    crcRound 0xC0000000#32 0xFFFFFFFF#32 = 0x7FFFFFFF#32 ∧ crcRound 0x40000000#32 0x04C11DB7#32 = 0x80000000#32 ∧
    wordUpdate 0xFFFFFFFF#32 0x12345678#32 0x04C11DB7#32 = 0xDF8A8A2B#32 ∧
    wordUpdate 0#32 1#32 0x04C11DB7#32 = 0x04C11DB7#32 ∧ wordUpdate 0#32 1#32 1#32 = 1#32 := by decide +kernel

/-! ## Host programs (R88, R90) -/

/-- R88's forms, a comment and a blank line; R90's loop; R89's pseudo-instructions. -/
theorem test_host_text :
    parseProgram "rd REG.STATUS ; poll\nsw  IMG[0x10], 0x44332211\n\nsb IMG[5], 0x1AB" =
      .ok [.rd .status, .store .word 0x10#20 0x44332211#32, .store .byte 5#20 0x1AB#32] ∧
    parseProgram "setlen 20\nuntil STATUS.END: step\ncrc" = .ok [.pseudo (.setlen 20#32), .untilEnd, .pseudo .crc] := by
  decide +kernel

/-- The polling loop over one word: a read, a STEP and a read that answers END. -/
theorem test_polling_loop :
    ((untilEnd 2 (stateAt 8 0)).map fun t => (t.acc, t.responses)) =
      some (0x1DABE74F#32, [⟨5#32, false⟩, ⟨0#32, false⟩, ⟨4#32, false⟩]) := by decide +kernel

/-! ## Witnesses: a state and operands that meet the hypotheses of each statement, clause by clause, at the edges of its ranges -/

theorem test_witness_decodeOfEncode : (Instr.lw 0xFFFFC#20).wf = true ∧ (Instr.sh 0xFFFFE#20 1#32).wf = true := by decide

theorem test_witness_encodeOfDecode : decodeAccess 0x00BFFFFC#32 7#32 = .ok (.sw 0xFFFFC#20 7#32) := by decide

theorem test_witness_descriptorMap :
    decodeAccess 0x0080003C#32 0#32 = .ok (.rdRsvd 7#3) ∧
    ∃ r ∈ accessRows, r.fits 0x0080003C#32 = true := by decide

theorem test_witness_hostProgram :
    ∀ r ∈ [Request.mk 0x00800004#32 0#32, ⟨0x00A0000C#32, 8#32⟩], r.desc.getLsbD 21 = false → r.wdata = 0#32 := by decide

theorem test_witness_stepPerforms :
    (sending 0x00A00000#32 1#32 (stateAt 8 4)).inputs = .access ⟨0x00A00000#32, 1#32⟩ :: [] ∧
    decodeAccess 0x00A00000#32 1#32 = .ok (.wrCmd 1#32) := by decide

theorem test_witness_busError :
    (sending 0x00900002#32 0#32 (stateAt 8 4)).inputs = .access ⟨0x00900002#32, 0#32⟩ :: [] ∧
    ∀ r ∈ accessRows, r.fits 0x00900002#32 = false := by decide

/-- For the two statements about the reset event. -/
theorem test_witness_reset : ({ stateAt 8 4 with inputs := [.reset] } : State).inputs = .reset :: [] := by decide

theorem test_witness_idle : (stateAt 8 4).inputs = [] := by decide

theorem test_witness_placedTableWord : decodeTableWord 64 0x0000000800A0000C = some (.wrLen 8#32) := by decide

theorem test_witness_oneResponse :
    ∃ t, (sending 0x00800000#32 0#32 (stateAt 8 4)).inputs = .access ⟨0x00800000#32, 0#32⟩ :: [] ∧
      step (sending 0x00800000#32 0#32 (stateAt 8 4)) = .next t := ⟨_, rfl, rfl⟩

/-- Both cases of the round: for R100 and R101 (d). -/
theorem test_witness_crcRound :
    BitVec.getLsbD 0x80000000#32 31 = true ∧ BitVec.getLsbD 0x7FFFFFFF#32 31 = false := by decide

/-- Two images that differ in the first slot byte of L = 4 and of L = 8, and a PATCH and a host write of the slot. -/
theorem test_witness_imageCrcIgnoresTheSlot :
    (∀ a, a < 8 - 4 → (fun _ => 0#8 : Nat → Byte) a = (fun a => if a = 4 then 1#8 else 0#8) a) ∧
    (stateAt 8 4).lenOk = true ∧ (∃ t, exec .patch (stateAt 8 4) = .next t) ∧
    (stateAt 8 4).slot ≤ (4#20 : Offset).toNat ∧ ∃ t, exec (.sb 4#20 9#32) (stateAt 8 4) = .next t :=
  ⟨fun a h => (if_neg (by omega)).symm, by decide, ⟨_, rfl⟩, by decide, ⟨_, rfl⟩⟩

/-- The lengths 4 and IMG_CAP of R108, and its image "12345678". -/
theorem test_witness_byteSerial :
    4 % 4 = 0 ∧ 0x100000 % 4 = 0 ∧ ∀ k, k < 8 → (fun a => BitVec.ofNat 8 (0x31 + a) : Nat → Byte) k = BitVec.ofNat 8 (0x31 + k) :=
  ⟨rfl, rfl, fun _ _ => rfl⟩

theorem test_witness_zeroPolynomial : 8 % 4 = 0 ∧ 8 ≤ 8 := by decide

theorem test_witness_nop : (4#32 : Word) ≠ 0#32 ∧ (0x10#32 : Word) ≠ 0#32 := by decide

theorem test_witness_init : (stateAt 4 0).len = 4#21 := by decide

/-- The last word before the slot, a length that fails LENOK, and the cursor at the slot. -/
theorem test_witness_step :
    ((stateAt 8 0).lenOk = true ∧ (stateAt 8 0).ptr.toNat + 4 ≤ (stateAt 8 0).len.toNat - 4) ∧ (stateAt 0 0).lenOk = false ∧
    ((stateAt 8 4).lenOk = true ∧ (stateAt 8 4).len.toNat - 4 < (stateAt 8 4).ptr.toNat + 4) := by decide

/-- No word left, a length above IMG_CAP, and the cursor one word past the slot. -/
theorem test_witness_run :
    ((stateAt 8 4).lenOk = true ∧ (stateAt 8 4).ptr.toNat % 4 = 0 ∧ (stateAt 8 4).ptr.toNat ≤ (stateAt 8 4).len.toNat - 4) ∧
    (stateAt 0x100004 0).lenOk = false ∧
    ((stateAt 8 8).lenOk = true ∧ (stateAt 8 8).len.toNat - 4 < (stateAt 8 8).ptr.toNat) := by decide

/-- The longest image at its end, a length that fails LENOK, and the cursor on either side of the slot. -/
theorem test_witness_patch :
    ((stateAt 0x100000 0xFFFFC).lenOk = true ∧ (stateAt 0x100000 0xFFFFC).ptr.toNat = (stateAt 0x100000 0xFFFFC).len.toNat - 4) ∧
    (stateAt 6 2).lenOk = false ∧
    ((stateAt 8 0).lenOk = true ∧ (stateAt 8 0).ptr.toNat ≠ (stateAt 8 0).len.toNat - 4) ∧
    ((stateAt 8 8).lenOk = true ∧ (stateAt 8 8).ptr.toNat ≠ (stateAt 8 8).len.toNat - 4) := by decide

theorem test_witness_patchedSlot : (stateAt 4 0).atEnd = true ∧ ∃ t, exec .patch (stateAt 4 0) = .next t :=
  ⟨by decide, ⟨_, rfl⟩⟩

/-- The least word reserved by OP and the least reserved by RSVD. -/
theorem test_witness_cmdWrite :
    5 ≤ (BitVec.extractLsb' 0 4 0x5#32).toNat ∧ BitVec.extractLsb' 4 28 0x10#32 ≠ 0#28 := by decide

/-- Each clause of R123: a reserved word; LENOK false; STEP and RUN one word too far; PATCH beside the slot; and a RUN all of
whose checks pass. -/
theorem test_witness_commandChecks :
    5 ≤ (BitVec.extractLsb' 0 4 0xF#32).toNat ∧ (stateAt 6 0).lenOk = false ∧
    ((stateAt 8 4).lenOk = true ∧ (stateAt 8 4).len.toNat - 4 < (stateAt 8 4).ptr.toNat + 4) ∧
    ((stateAt 8 8).lenOk = true ∧ (stateAt 8 8).len.toNat - 4 < (stateAt 8 8).ptr.toNat) ∧
    ((stateAt 8 0).lenOk = true ∧ (stateAt 8 0).ptr.toNat ≠ (stateAt 8 0).len.toNat - 4) ∧
    (¬ (BitVec.extractLsb' 4 28 3#32 ≠ 0#28 ∨ 5 ≤ (BitVec.extractLsb' 0 4 3#32).toNat) ∧ (stateAt 8 4).lenOk = true ∧
      ¬ (stateAt 8 4).len.toNat - 4 < (stateAt 8 4).ptr.toNat ∧ (stateAt 8 4).ptr.toNat % 4 = 0) := by decide

/-- A STEP that the host sends while every error bit is set: also for the statements about who moves ACC, PTR and PATCHED. -/
theorem test_witness_stickyErrors :
    let s := { sending 0x00A00000#32 2#32 (stateAt 8 0) with
      errCmd := true, errLen := true, errRange := true, errSeq := true, patched := true }
    (∃ t, step s = .next t) ∧ s.inputs.head? ≠ some .reset ∧ s.nextInstr = some (.wrCmd 2#32) ∧
      s.nextInstr ≠ some (.wrCmd 1#32) := ⟨⟨_, rfl⟩, by decide⟩

theorem test_inv_stateAt : (stateAt 8 0).Inv := by unfold State.Inv; decide

theorem test_witness_idempotent :
    (stateAt 8 0).Inv ∧ (∃ t, exec .run (stateAt 8 0) = .next t) ∧
    ((stateAt 12 0).lenOk = true ∧ (stateAt 12 0).ptr.toNat + 8 ≤ (stateAt 12 0).len.toNat - 4) :=
  ⟨test_inv_stateAt, ⟨_, rfl⟩, by decide⟩

/-- Two states that differ in the slot's first byte. -/
theorem test_witness_engineNeverReadsTheSlot :
    (stateAt 8 0).Inv ∧
    (stateAt 8 0).agreeBelow (stateAt 8 0).slot { stateAt 8 0 with img := (stateAt 8 0).img ++ [(4, 0x99#8)] } := by
  refine ⟨test_inv_stateAt, rfl, rfl, rfl, rfl, rfl, rfl, rfl, rfl, rfl, rfl, fun b hb => ?_⟩
  have : b = 0 ∨ b = 1 ∨ b = 2 ∨ b = 3 := by
    have h : (stateAt 8 0).slot = 4 := by decide
    omega
  rcases this with rfl | rfl | rfl | rfl <;> rfl

/-- No STEP and every STEP before the RUN. -/
theorem test_witness_incremental :
    (stateAt 12 0).lenOk = true ∧ (stateAt 12 0).ptr = 0#21 ∧ (stateAt 12 0).acc = 0xFFFFFFFF#32 ∧
      0 ≤ (stateAt 12 0).len.toNat / 4 - 1 ∧ 2 ≤ (stateAt 12 0).len.toNat / 4 - 1 := by decide

/-- Reading PTR in a state that meets the invariant. -/
theorem test_witness_registerReads : (stateAt 8 0).Inv := test_inv_stateAt

/-- The values LEN is written with in R148, and the aligned offsets at the end of IMG. -/
theorem test_witness_offsets :
    (0xFFFFE#20 : Offset).toNat % 2 = 0 ∧ (0xFFFFC#20 : Offset).toNat % 4 = 0 ∧ (0xFFFFF#20 : Offset).toNat % 2 ≠ 0 ∧
    (0xFFFFE#20 : Offset).toNat % 4 ≠ 0 ∧ 3 < 4 := by decide

theorem test_witness_invariantKept :
    State.Inv (sending 0x00A00000#32 2#32 (stateAt 8 0)) ∧ ∃ t, step (sending 0x00A00000#32 2#32 (stateAt 8 0)) = .next t :=
  ⟨test_inv_stateAt, ⟨_, rfl⟩⟩

/-- A PATCH sets PATCHED and an INIT clears it. -/
theorem test_witness_patched :
    let s := sending 0x00A00000#32 4#32 (stateAt 8 4)
    let u := { sending 0x00A00000#32 1#32 (stateAt 8 4) with patched := true }
    s.patched = false ∧ (orElse s (step s)).patched = true ∧ u.patched = true ∧ (orElse u (step u)).patched = false := by
  decide

theorem test_witness_onlyCommandsWriteFlags :
    let s := sending 0x00B00000#32 7#32 (stateAt 8 4)
    (∃ t, step s = .next t) ∧ s.inputs.head? ≠ some .reset ∧ ∀ v, s.nextInstr ≠ some (.wrCmd v) :=
  ⟨⟨_, rfl⟩, by decide, fun v h => by
    have h' : some (Instr.sw 0#20 7#32) = some (.wrCmd v) := h
    cases h'⟩

/-- A host write changes byte 0, and a PATCH the last byte of its slot. -/
theorem test_witness_imageChanges :
    let s := sending 0x00300000#32 0xAA#32 (stateAt 8 4)
    let u := { sending 0x00A00000#32 4#32 (stateAt 8 4) with img := [(7, 0x11#8)] }
    (orElse s (step s)).imgByte 0 ≠ s.imgByte 0 ∧ (orElse u (step u)).imgByte 7 ≠ u.imgByte 7 := by decide

theorem test_witness_lenNotWritten : (stateAt 0 0).lenOk = false := by decide

theorem test_witness_initIsNotAReset : (stateAt 0 4).poly = 0x04C11DB7#32 ∧ (stateAt 0 4).len = 0#21 := by decide

theorem test_witness_polyWrite :
    (stateAt 12 0).lenOk = true ∧ (stateAt 12 0).ptr.toNat + 8 ≤ (stateAt 12 0).len.toNat - 4 := by decide

/-- T-H3. -/
theorem test_witness_lenLowered :
    { stateAt 12 8 with len := BitVec.extractLsb' 0 21 8#32 }.lenOk = true ∧
    (BitVec.extractLsb' 0 21 8#32).toNat - 4 < (stateAt 12 8).ptr.toNat := by decide

/-- T-H4: word 0 rewritten behind PTR = 4. -/
theorem test_witness_behindPtr :
    let m : Memory := [(0, 0#8), (1, 0#8), (2, 0#8), (3, 0#8)]
    ∀ a, (stateAt 12 4).ptr.toNat ≤ a → { stateAt 12 4 with img := m }.imgByte a = (stateAt 12 4).imgByte a := by
  intro m a h
  have h4 : (stateAt 12 4).ptr.toNat = 4 := by decide
  have hm : Memory.lookup a m = none := by
    simp only [m, Memory.lookup]
    rw [if_neg (by omega), if_neg (by omega), if_neg (by omega), if_neg (by omega)]
  have hs : Memory.lookup a (stateAt 12 4).img = none := by
    simp only [stateAt, Memory.lookup]
    rw [if_neg (by omega), if_neg (by omega), if_neg (by omega), if_neg (by omega)]
  show (match Memory.lookup a m with | some b => b | none => Config.imgDraw 0 a) =
    match Memory.lookup a (stateAt 12 4).img with | some b => b | none => Config.imgDraw 0 a
  rw [hm, hs]

/-- One word left with fuel for two reads; a length that fails LENOK; and the cursor one word past the slot. -/
theorem test_witness_pollingLoop :
    ((stateAt 8 0).lenOk = true ∧ (stateAt 8 0).ptr.toNat % 4 = 0 ∧ (stateAt 8 0).ptr.toNat ≤ (stateAt 8 0).len.toNat - 4 ∧
      ((stateAt 8 0).len.toNat - 4 - (stateAt 8 0).ptr.toNat) / 4 < 2) ∧
    (stateAt 6 0).lenOk = false ∧ (stateAt 8 8).len.toNat < (stateAt 8 8).ptr.toNat + 4 := by decide

theorem test_witness_sourceCalls : (stateAt 8 0).lenOk = true := by decide

end Sys2Proof.Tests
end

section
/-! SUPPORT. What a CMD write and a step can do, as inductive relations with one constructor per case; every whole-machine claim of
10_state.md is read off these cases. -/

namespace Sys2Proof

/-- A command word is its RSVD field above its OP field (30_encoding.md R80). -/
theorem word_eq_cmdRsvd_append_cmdOp (v : Word) : v = cmdRsvd v ++ cmdOp v := by
  apply BitVec.eq_of_getLsbD_eq
  intro i hi
  simp only [cmdRsvd, cmdOp, BitVec.getLsbD_append, BitVec.getLsbD_extractLsb']
  by_cases h : i < 4
  · simp [h]
  · simp [h, show i - 4 < 28 by omega, show 4 + (i - 4) = i by omega]

/-- A word selects a command exactly where it is that command's word (30_encoding.md R83). -/
theorem decodeCommand_eq_ok_iff (v : Word) (c : Command) : decodeCommand v = .ok c ↔ v = c.word := by
  constructor
  · intro h
    have hf : cmdRsvd v = 0#28 ∧ cmdOp v = c.op := by
      unfold decodeCommand at h
      split at h
      · cases h
      next hr =>
      refine ⟨by simpa using hr, ?_⟩
      repeat (split at h; (· cases h; assumption))
      cases h
    rw [word_eq_cmdRsvd_append_cmdOp v, hf.1, hf.2, Command.word]
  · rintro rfl
    cases c <;> decide

end Sys2Proof

namespace Sys2Proof.Machine

/-! ## Operations whose effect is said once -/

/-- Set the error bits that are asked for and keep the others (10_state.md R34). -/
def State.raiseErrors (s : State) (c l r q : Bool) : State :=
  { s with errCmd := c || s.errCmd, errLen := l || s.errLen, errRange := r || s.errRange, errSeq := q || s.errSeq }

/-- Word steps that stay in the 21 bits of PTR: ACC takes the words in order, PTR moves on, PATCHED is cleared. -/
theorem iterate_wordStep_moves {k : Nat} {s : State} (hk : 1 ≤ k) (h : s.ptr.toNat + 4 * k < 2 ^ 21) :
    (State.wordStep^[k] s).acc = crcWords s.imgByte s.poly k s.ptr.toNat s.acc ∧
    (State.wordStep^[k] s).ptr.toNat = s.ptr.toNat + 4 * k ∧ (State.wordStep^[k] s).patched = false := by
  rw [iterate_wordStep_eq k s h]
  exact ⟨rfl, by simpa using Nat.mod_eq_of_lt h, by simp; omega⟩

/-! ## A command word -/

/-- What writing the word `v` to CMD makes of a state: at most error bits set, an INIT, word steps that stay below LEN, or the
filling of the slot. -/
inductive CommandEffect (v : Word) (s : State) : State → Prop
  | errors (c l r q : Bool) : CommandEffect v s (s.raiseErrors c l r q)
  | init (hv : v = 1#32) : CommandEffect v s (cmdInit s)
  | words (k : Nat) (hk : 1 ≤ k) (hv : v = 2#32 ∧ k = 1 ∨ v = 3#32) (hlen : s.ptr.toNat + 4 * k < s.len.toNat)
      (hcap : s.len.toNat ≤ 0x100000) : CommandEffect v s (State.wordStep^[k] s)
  | patch (hv : v = 4#32) (hend : s.atEnd = true) : CommandEffect v s s.patchSlot

theorem issueCommand_effect (v : Word) (s : State) : CommandEffect v s (issueCommand v s) := by
  rcases issueCommand_cases v s with h | ⟨hv, h⟩ | ⟨k, hk, hv, hl, h, hb⟩ | ⟨hv, he, h⟩ | ⟨-, h⟩ | ⟨-, -, h⟩ | ⟨-, -, h⟩ |
    ⟨-, -, -, h⟩ <;> rw [h]
  · exact .errors false false false false
  · exact .init ((decodeCommand_eq_ok_iff v .init).1 hv)
  · simp only [decodeCommand_eq_ok_iff] at hv
    obtain ⟨-, h4, hcap⟩ := (State.lenOk_iff s).1 hl
    have hslot : s.slot = s.len.toNat - 4 := rfl
    exact .words k hk hv (by omega) hcap
  · exact .patch ((decodeCommand_eq_ok_iff v .patch).1 hv) he
  · exact .errors true false false false
  · exact .errors false true false false
  · exact .errors false false true false
  · exact .errors false false false true

/-! ## A step -/

/-- What a step makes of a state: nothing, a reset, a response alone, or the effect of a CMD, POLY or LEN write or of an aligned
image write, once the transaction is taken from the port. -/
inductive StepEffect (s : State) : State → Prop
  | idle : StepEffect s s
  | reset (hr : s.inputs.head? = some .reset) : StepEffect s s.dropInput.resetInput
  | answer (r : Response) : StepEffect s (s.dropInput.answer r)
  | command (v : Word) (hi : s.nextInstr = some (.wrCmd v)) : StepEffect s (issueCommand v s.dropInput).answerWrite
  | wrPoly (v : Word) (hi : s.nextInstr = some (.wrPoly v)) : StepEffect s { s.dropInput with poly := v }.answerWrite
  | wrLen (v : Word) (hi : s.nextInstr = some (.wrLen v)) :
      StepEffect s { s.dropInput with len := lenOperand v }.answerWrite
  | store (off : Offset) (v : Word) (n : Nat)
      (hi : s.nextInstr = some (.sb off v) ∧ n = 1 ∨ s.nextInstr = some (.sh off v) ∧ n = 2 ∨
        s.nextInstr = some (.sw off v) ∧ n = 4)
      (ha : off.toNat % n = 0) : StepEffect s (s.dropInput.memWrite off.toNat n v).answerWrite

theorem stepEffect_of_step {s t : State} (h : step s = .next t) : StepEffect s t := by
  rcases step_cases h with ⟨-, rfl⟩ | ⟨rest, hs, rfl⟩ | ⟨r, rest, e, -, -, rfl⟩ | ⟨r, rest, i, -, hd, hi, he⟩
  · exact .idle
  · exact .reset (by rw [hs]; rfl)
  · exact .answer _
  · rcases exec_cases he with ⟨r, rfl⟩ | ⟨c, rfl | rfl, rfl⟩ | ⟨v, rfl, rfl⟩ | ⟨v, rfl, rfl⟩ | ⟨v, rfl, rfl⟩ |
      ⟨off, v, n, hn, ha, rfl⟩
    · exact .answer r
    · exact absurd rfl (decodeAccess_ne_command hd c)
    · exact .command _ hi
    · exact .command v hi
    · exact .wrPoly v hi
    · exact .wrLen v hi
    · exact .store off v n (by simpa [hi] using hn) ha

end Sys2Proof.Machine
end

section
/-! PROOFS. The invariant of 10_state.md R38 (O46, O47). -/

namespace Sys2Proof.Machine

/-- The invariant reads PTR and IMG alone. -/
theorem State.Inv.congr {s t : State} (h : s.Inv) (hp : t.ptr = s.ptr) (hm : t.img = s.img) : t.Inv := by
  unfold State.Inv at h ⊢
  rwa [hp, hm]

/-- A state with PTR = 0 meets the invariant where its image is in canonical form. -/
theorem State.inv_of_ptr_zero {s : State} (hp : s.ptr = 0#21) (hm : Memory.wf s.img = true) : s.Inv :=
  ⟨by simp [hp], by simp [hp], hm⟩

/-- Word steps below LEN keep PTR a multiple of 4 and below IMG_CAP. -/
theorem iterate_wordStep_inv {k : Nat} {s : State} (h : s.Inv) (hk : 1 ≤ k) (hlen : s.ptr.toNat + 4 * k < s.len.toNat)
    (hcap : s.len.toNat ≤ 0x100000) : (State.wordStep^[k] s).Inv := by
  obtain ⟨halign, -, hwf⟩ := h
  obtain ⟨-, hp, -⟩ := iterate_wordStep_moves (s := s) hk (by omega)
  obtain ⟨-, -, hm, -⟩ := iterate_wordStep_keeps k s
  refine ⟨by omega, ?_, by rwa [hm]⟩
  simp only [Config.imgCap]
  omega

/-- The slot of a valid LEN lies inside the image, so a PATCH keeps the canonical form. -/
theorem patchSlot_inv {s : State} (h : s.Inv) (hl : s.lenOk = true) : s.patchSlot.Inv := by
  obtain ⟨halign, hbound, hwf⟩ := h
  obtain ⟨-, h4, hcap⟩ := (State.lenOk_iff s).1 hl
  refine ⟨halign, hbound, Memory.wf_writeBytes _ _ _ _ hwf ?_⟩
  simp only [State.slot, Config.slotBytes, Config.imgCap]
  omega

theorem State.lenOk_of_atEnd {s : State} (h : s.atEnd = true) : s.lenOk = true := by
  simp only [State.atEnd, Bool.and_eq_true] at h
  exact h.1

/-- Every command keeps the invariant. -/
theorem CommandEffect.inv {v : Word} {s t : State} (e : CommandEffect v s t) (h : s.Inv) : t.Inv := by
  cases e with
  | errors c l r q => exact h.congr rfl rfl
  | init hv =>
    obtain ⟨-, -, hwf⟩ := h
    exact State.inv_of_ptr_zero rfl hwf
  | words k hk hv hlen hcap => exact iterate_wordStep_inv h hk hlen hcap
  | patch hv hend => exact patchSlot_inv h (State.lenOk_of_atEnd hend)

/-- An aligned image write ends below IMG_CAP: its OFFSET has 20 bits and its size divides IMG_CAP. -/
theorem offset_add_size_le_imgCap (off : Offset) {n : Nat} (hn : n = 1 ∨ n = 2 ∨ n = 4) (ha : off.toNat % n = 0) :
    off.toNat + n ≤ Config.imgCap := by
  have hoff := off.isLt
  simp only [Config.imgCap]
  rcases hn with rfl | rfl | rfl <;> omega

/-- Settles O46, by the cases of a step: only word steps and INIT move PTR, only stores and PATCH write IMG. -/
theorem everyStepKeepsTheInvariant : Obligations.EveryStepKeepsTheInvariant := by
  intro s t h hstep
  have hd : s.dropInput.Inv := h.congr rfl rfl
  cases stepEffect_of_step hstep with
  | idle => exact h
  | reset hr => exact State.inv_of_ptr_zero rfl rfl
  | answer r => exact hd.congr rfl rfl
  | command v hi => exact ((issueCommand_effect v s.dropInput).inv hd).congr rfl rfl
  | wrPoly v hi => exact hd.congr rfl rfl
  | wrLen v hi => exact hd.congr rfl rfl
  | store off v n hi ha =>
    obtain ⟨halign, hbound, hwf⟩ := hd
    refine ⟨halign, hbound, Memory.wf_writeBytes _ _ _ _ hwf (offset_add_size_le_imgCap off ?_ ha)⟩
    obtain ⟨-, hn⟩ | ⟨-, hn⟩ | ⟨-, hn⟩ := hi <;> simp [hn]

/-- Settles O47: PTR is 0 and no byte of IMG is written. -/
theorem resetMeetsTheInvariant : Obligations.ResetMeetsTheInvariant :=
  State.inv_of_ptr_zero rfl rfl

end Sys2Proof.Machine
end

section
/-! PROOFS. Who changes the registers, the flags and the image (O33, O48, O49, O50, O51, O52): what each command does to them,
and then the claim over a step. -/

namespace Sys2Proof.Machine

/-! ## What a command does -/

/-- No command but INIT clears an error bit (10_state.md R34). -/
theorem CommandEffect.errorBits_stick {v : Word} {s t : State} (e : CommandEffect v s t) (hv : v ≠ 1#32) :
    (s.errCmd = true → t.errCmd = true) ∧ (s.errLen = true → t.errLen = true) ∧
      (s.errRange = true → t.errRange = true) ∧ (s.errSeq = true → t.errSeq = true) := by
  cases e with
  | errors c l r q => simp +contextual [State.raiseErrors]
  | init hinit => exact absurd hinit hv
  | words k hk hw hlen hcap =>
    obtain ⟨-, -, -, -, -, -, hc, hl, hr, hq⟩ := iterate_wordStep_keeps k s
    simp [hc, hl, hr, hq]
  | patch hp hend => simp

/-- A command leaves ACC and PTR alone, or is an INIT, or takes the words from PTR on (10_state.md R24, R28). -/
theorem CommandEffect.acc_ptr {v : Word} {s t : State} (e : CommandEffect v s t) :
    t.acc = s.acc ∧ t.ptr = s.ptr ∨
    v = 1#32 ∧ t.acc = 0xFFFFFFFF#32 ∧ t.ptr = 0#21 ∨
    ∃ k, 1 ≤ k ∧ (v = 2#32 ∧ k = 1 ∨ v = 3#32) ∧ t.acc = crcWords s.imgByte s.poly k s.ptr.toNat s.acc ∧
      t.ptr.toNat = s.ptr.toNat + 4 * k ∧ t.ptr.toNat < s.len.toNat ∧ t.patched = false := by
  cases e with
  | errors c l r q => exact .inl ⟨rfl, rfl⟩
  | init hv => exact .inr (.inl ⟨hv, rfl, rfl⟩)
  | words k hk hv hlen hcap =>
    obtain ⟨hacc, hptr, hpatched⟩ := iterate_wordStep_moves (s := s) hk (by omega)
    exact .inr (.inr ⟨k, hk, hv, hacc, hptr, by omega, hpatched⟩)
  | patch hv hend => exact .inl ⟨rfl, rfl⟩

/-- A command that sets PATCHED is a PATCH at END (10_state.md R32). -/
theorem CommandEffect.patched_set {v : Word} {s t : State} (e : CommandEffect v s t) (hs : s.patched = false)
    (ht : t.patched = true) : v = 4#32 ∧ s.atEnd = true := by
  cases e with
  | errors c l r q => exact absurd (hs.symm.trans ht) Bool.false_ne_true
  | init hv => cases ht
  | words k hk hv hlen hcap =>
    obtain ⟨-, -, hpatched⟩ := iterate_wordStep_moves (s := s) hk (by omega)
    exact absurd (hpatched.symm.trans ht) Bool.false_ne_true
  | patch hv hend => exact ⟨hv, hend⟩

/-- A command that clears PATCHED is an INIT, or a STEP or RUN that moves PTR (10_state.md R32). -/
theorem CommandEffect.patched_clear {v : Word} {s t : State} (e : CommandEffect v s t) (hs : s.patched = true)
    (ht : t.patched = false) : v = 1#32 ∨ (v = 2#32 ∨ v = 3#32) ∧ t.ptr ≠ s.ptr := by
  cases e with
  | errors c l r q => exact absurd (ht.symm.trans hs) Bool.false_ne_true
  | init hv => exact .inl hv
  | words k hk hv hlen hcap =>
    obtain ⟨-, hptr, -⟩ := iterate_wordStep_moves (s := s) hk (by omega)
    refine .inr ⟨hv.imp_left And.left, fun hsame => ?_⟩
    rw [hsame] at hptr
    omega
  | patch hv hend => cases ht

/-- A command that changes a byte of IMG is a PATCH at END with that byte in its slot (20_memory.md R52). -/
theorem CommandEffect.imgByte_changed {v : Word} {s t : State} (e : CommandEffect v s t) {a : Nat}
    (h : t.imgByte a ≠ s.imgByte a) :
    v = 4#32 ∧ s.atEnd = true ∧ s.len.toNat - 4 ≤ a ∧ a < s.len.toNat := by
  cases e with
  | errors c l r q => exact absurd rfl h
  | init hv => exact absurd rfl h
  | words k hk hv hlen hcap => exact absurd (congrFun (imgByte_iterate_wordStep k s) a) h
  | patch hv hend =>
    obtain ⟨-, h4, -⟩ := (State.lenOk_iff s).1 (State.lenOk_of_atEnd hend)
    have hslot : s.slot = s.len.toNat - 4 := rfl
    have hin : ¬ (a < s.slot ∨ s.slot + 4 ≤ a) := fun hout => h (imgByte_patchSlot_out s a hout)
    exact ⟨hv, hend, by omega, by omega⟩

/-- A byte that a `MemWrite` changes is one of those it writes. -/
theorem State.imgByte_memWrite_changed {s : State} {i n : Nat} {v : Word} {a : Nat}
    (h : (s.memWrite i n v).imgByte a ≠ s.imgByte a) : i ≤ a ∧ a < i + n := by
  by_contra hout
  exact h (State.imgByte_memWrite_out s i n v a (by omega))

/-! ## The claims over a step -/

/-- Settles O33: of the steps that touch an error bit, only a reset and INIT clear one. -/
theorem errorBitsStickUntilInitOrReset : Obligations.ErrorBitsStickUntilInitOrReset := by
  intro s t hstep hnr hninit
  cases stepEffect_of_step hstep with
  | reset hr => exact absurd hr hnr
  | command v hi =>
    exact (issueCommand_effect v s.dropInput).errorBits_stick fun hv => hninit (hv ▸ hi)
  | idle | answer r | wrPoly v hi | wrLen v hi | store off v n hi ha => exact ⟨id, id, id, id⟩

/-- Settles O48, by the cases of a step. -/
theorem onlyInitAndWordStepsMoveAccAndPtr : Obligations.OnlyInitAndWordStepsMoveAccAndPtr := by
  intro s t hstep
  cases stepEffect_of_step hstep with
  | reset hr => exact .inr (.inl ⟨.inl hr, rfl, rfl⟩)
  | command v hi =>
    rcases (issueCommand_effect v s.dropInput).acc_ptr with hkept | ⟨rfl, hinit⟩ | ⟨k, hk, ⟨rfl, hone⟩ | rfl, hwords⟩
    · exact .inl hkept
    · exact .inr (.inl ⟨.inr hi, hinit⟩)
    · exact .inr (.inr ⟨k, hk, .inl ⟨hi, hone⟩, hwords⟩)
    · exact .inr (.inr ⟨k, hk, .inr hi, hwords⟩)
  | idle | answer r | wrPoly v hi | wrLen v hi | store off v n hi ha => exact .inl ⟨rfl, rfl⟩

/-- Settles O49: no command changes POLY or LEN (`issueCommand_keeps`). -/
theorem onlyTheirWritesChangePolyAndLen : Obligations.OnlyTheirWritesChangePolyAndLen := by
  intro s t hstep hnr
  cases stepEffect_of_step hstep with
  | reset hr => exact absurd hr hnr
  | command v hi =>
    obtain ⟨hpoly, hlen, -⟩ := issueCommand_keeps v s.dropInput
    exact ⟨.inl hpoly, .inl hlen⟩
  | wrPoly v hi => exact ⟨.inr hi, .inl rfl⟩
  | wrLen v hi => exact ⟨.inl rfl, .inr ⟨v, hi, rfl⟩⟩
  | idle | answer r | store off v n hi ha => exact ⟨.inl rfl, .inl rfl⟩

/-- Settles O50, by the cases of a step. -/
theorem patchedIsSetByPatchAlone : Obligations.PatchedIsSetByPatchAlone := by
  intro s t hstep
  cases stepEffect_of_step hstep with
  | reset hr => exact ⟨fun _ ht => Bool.noConfusion ht, fun _ _ => .inl hr⟩
  | command v hi =>
    have e := issueCommand_effect v s.dropInput
    refine ⟨fun hs ht => ?_, fun hs ht => .inr ?_⟩
    · obtain ⟨rfl, hend⟩ := e.patched_set hs ht
      exact ⟨hi, hend⟩
    · rcases e.patched_clear hs ht with rfl | ⟨rfl | rfl, hptr⟩
      · exact .inl hi
      · exact .inr ⟨.inl hi, hptr⟩
      · exact .inr ⟨.inr hi, hptr⟩
  | idle | answer r | wrPoly v hi | wrLen v hi | store off v n hi ha =>
    exact ⟨fun hs ht => absurd (hs.symm.trans ht) Bool.false_ne_true,
      fun hs ht => absurd (ht.symm.trans hs) Bool.false_ne_true⟩

/-- Settles O51: of the transactions, only a CMD write reaches a flag, ACC or PTR. -/
theorem onlyCommandsWriteFlags : Obligations.OnlyCommandsWriteFlags := by
  intro s t hstep hnr hncmd
  cases stepEffect_of_step hstep with
  | reset hr => exact absurd hr hnr
  | command v hi => exact absurd hi (hncmd v)
  | idle | answer r | wrPoly v hi | wrLen v hi | store off v n hi ha => exact ⟨rfl, rfl, rfl, rfl, rfl, rfl, rfl⟩

/-- Settles O52: a changed byte is one that the step's `MemWrite` covers. -/
theorem onlyStoresAndPatchChangeTheImage : Obligations.OnlyStoresAndPatchChangeTheImage := by
  intro s t a hstep hchanged
  cases stepEffect_of_step hstep with
  | reset hr => exact .inl hr
  | command v hi =>
    obtain ⟨rfl, hslot⟩ := (issueCommand_effect v s.dropInput).imgByte_changed hchanged
    exact .inr (.inr (.inr (.inr ⟨hi, hslot⟩)))
  | store off v n hi ha =>
    obtain ⟨hlo, hhi⟩ := State.imgByte_memWrite_changed (s := s.dropInput) hchanged
    rcases hi with ⟨hi, rfl⟩ | ⟨hi, rfl⟩ | ⟨hi, rfl⟩
    · exact .inr (.inl ⟨off, v, hi, by omega⟩)
    · exact .inr (.inr (.inl ⟨off, v, hi, hlo, hhi⟩))
    · exact .inr (.inr (.inr (.inl ⟨off, v, hi, hlo, hhi⟩)))
  | idle | answer r | wrPoly v hi | wrLen v hi => exact absurd rfl hchanged

end Sys2Proof.Machine
end

section
/-! PROOFS. Error bits block nothing (O34): what an instruction leaves, error bits and responses aside, is the same from the state
with these hidden. -/

namespace Sys2Proof.Machine

/-- The state with its error bits cleared and its responses dropped: a read of STATUS answers the error bits, so the responses
are no part of what the error bits leave alone. -/
def State.hideErrors (s : State) : State :=
  { s with errCmd := false, errLen := false, errRange := false, errSeq := false, responses := [] }

/-- What `hideErrors` keeps. -/
theorem State.eq_of_hideErrors_eq {t u : State} (h : t.hideErrors = u.hideErrors) :
    t.acc = u.acc ∧ t.ptr = u.ptr ∧ t.patched = u.patched ∧ t.poly = u.poly ∧ t.len = u.len ∧ t.img = u.img :=
  ⟨(congrArg State.acc h :), (congrArg State.ptr h :), (congrArg State.patched h :), (congrArg State.poly h :),
    (congrArg State.len h :), (congrArg State.img h :)⟩

/-! The branches of a command test LENOK, PTR and LEN alone, so that both sides of each statement below take the same one. -/

theorem hideErrors_runLoop (n : Nat) (s : State) : (runLoop n s).hideErrors = runLoop n s.hideErrors := by
  induction n generalizing s with
  | zero => rfl
  | succ n ih =>
    rw [runLoop, apply_ite State.hideErrors, ih]
    rfl

theorem hideErrors_cmdStep (s : State) : (cmdStep s).hideErrors = (cmdStep s.hideErrors).hideErrors := by
  simp only [cmdStep, apply_ite State.hideErrors]
  rfl

theorem hideErrors_cmdRun (s : State) : (cmdRun s).hideErrors = (cmdRun s.hideErrors).hideErrors := by
  simp only [cmdRun, apply_ite State.hideErrors, hideErrors_runLoop]
  rfl

theorem hideErrors_cmdPatch (s : State) : (cmdPatch s).hideErrors = (cmdPatch s.hideErrors).hideErrors := by
  simp only [cmdPatch, apply_ite State.hideErrors]
  rfl

theorem hideErrors_issueCommand (v : Word) (s : State) :
    (issueCommand v s).hideErrors = (issueCommand v s.hideErrors).hideErrors := by
  unfold issueCommand
  cases decodeCommand v with
  | error e => rfl
  | ok c =>
    cases c with
    | nop | init => rfl
    | step => exact hideErrors_cmdStep s
    | run => exact hideErrors_cmdRun s
    | patch => exact hideErrors_cmdPatch s

theorem hideErrors_imgLoad (n : Nat) (off : Offset) (s : State) :
    (imgLoad n off s).hideErrors = (imgLoad n off s.hideErrors).hideErrors := by
  unfold imgLoad
  split <;> rfl

theorem hideErrors_imgStore (n : Nat) (off : Offset) (v : Word) (s : State) :
    (imgStore n off v s).hideErrors = (imgStore n off v s.hideErrors).hideErrors := by
  unfold imgStore
  split <;> rfl

/-- An instruction leaves the same state, error bits and responses aside, whether it finds the error bits or has them hidden. -/
theorem hideErrors_exec (i : Instr) (s : State) :
    ∃ t u, exec i s = .next t ∧ exec i s.hideErrors = .next u ∧ t.hideErrors = u.hideErrors := by
  cases i with
  | step => exact ⟨_, _, rfl, rfl, hideErrors_cmdStep s⟩
  | run => exact ⟨_, _, rfl, rfl, hideErrors_cmdRun s⟩
  | patch => exact ⟨_, _, rfl, rfl, hideErrors_cmdPatch s⟩
  | wrCmd v => exact ⟨_, _, rfl, rfl, hideErrors_issueCommand v s⟩
  | lb off | lh off | lw off => exact ⟨_, _, rfl, rfl, hideErrors_imgLoad _ off s⟩
  | sb off v | sh off v | sw off v => exact ⟨_, _, rfl, rfl, hideErrors_imgStore _ off v s⟩
  | _ => exact ⟨_, _, rfl, rfl, rfl⟩

/-- Settles O34: the two states differ in what `hideErrors` hides alone, so the instruction leaves them so (`hideErrors_exec`). -/
theorem errorBitsBlockNothing : Obligations.ErrorBitsBlockNothing := by
  intro i s c l r q
  obtain ⟨t, t', ht, ht', h⟩ := hideErrors_exec i s
  obtain ⟨u, u', hu, hu', k⟩ := hideErrors_exec i { s with errCmd := c, errLen := l, errRange := r, errSeq := q }
  have hsame : t' = u' := Host.Outcome.next.inj (ht'.symm.trans hu')
  have hide : t.hideErrors = u.hideErrors := h.trans (hsame ▸ k.symm)
  exact ⟨t, u, ht, hu, State.eq_of_hideErrors_eq hide⟩

end Sys2Proof.Machine
end

section
/-! PROOFS. LENOK (O40). -/

namespace Sys2Proof.Machine

/-- Bit 2 of STATUS is LENOK, with PATCHED and END below it (42_bus_access.md R143). -/
theorem getLsbD_statusWord_two (s : State) : s.statusWord.getLsbD 2 = s.lenOk := by
  simp only [State.statusWord, BitVec.getLsbD_setWidth, BitVec.getLsbD_append, BitVec.getLsbD_ofBool]
  simp

/-- Settles O40. -/
theorem lenokIsTheValidLengths : Obligations.LenokIsTheValidLengths :=
  fun s => ⟨s.lenOk_iff, getLsbD_statusWord_two s⟩

end Sys2Proof.Machine
end

section
/-! SUPPORT. Branches of STEP, RUN and PATCH (41_commands.md R123), the word step's PTR, and the commands as instructions of the
opcode table. -/

namespace Sys2Proof.Machine

variable {s : State}

theorem cmdStep_of_ok (hl : s.lenOk = true) (hp : s.ptr.toNat + 4 ≤ s.slot) : cmdStep s = s.wordStep := by
  simp [cmdStep, hl, Config.wordBytes, Nat.not_lt.2 hp]

theorem cmdRun_of_lenOk_false (hl : s.lenOk = false) : cmdRun s = s.raiseErrLen := by
  simp [cmdRun, hl]

theorem cmdRun_of_past (hl : s.lenOk = true) (hp : s.slot < s.ptr.toNat) : cmdRun s = s.raiseErrRange := by
  simp [cmdRun, hl, hp]

theorem cmdPatch_of_lenOk_false (hl : s.lenOk = false) : cmdPatch s = s.raiseErrLen := by
  simp [cmdPatch, hl]

theorem cmdPatch_of_ne_slot (hl : s.lenOk = true) (hp : s.ptr.toNat ≠ s.slot) : cmdPatch s = s.raiseErrSeq := by
  simp [cmdPatch, hl, hp]

theorem cmdPatch_of_eq_slot (hl : s.lenOk = true) (hp : s.ptr.toNat = s.slot) : cmdPatch s = s.patchSlot := by
  simp [cmdPatch, hl, hp]

/-- A word step moves PTR on by 4, where PTR does not wrap (40_crc_arithmetic.md R103). -/
theorem State.toNat_ptr_wordStep (h : s.ptr.toNat + 4 < 2 ^ 21) : s.wordStep.ptr.toNat = s.ptr.toNat + 4 := by
  rw [State.wordStep_ptr, BitVec.toNat_add]
  exact Nat.mod_eq_of_lt h

theorem State.slot_lt (s : State) : s.slot < 2 ^ 21 := lt_of_le_of_lt (Nat.sub_le _ _) s.len.isLt

/-- The slot of a valid LEN is aligned (10_state.md R33). -/
theorem State.slot_mod_four (h : s.lenOk = true) : s.slot % 4 = 0 := by
  obtain ⟨halign, hlo, -⟩ := s.lenOk_iff.1 h
  simp only [State.slot, Config.slotBytes]
  omega

/-- END in numbers (10_state.md R31). -/
theorem State.atEnd_iff (s : State) : s.atEnd = true ↔ s.lenOk = true ∧ s.ptr.toNat = s.slot := by
  simp only [State.atEnd, Bool.and_eq_true, beq_iff_eq]

/-- A command row of the opcode table is what the CMD write of its word does (30_encoding.md R89). -/
theorem exec_toInstr (c : Command) (s : State) : exec c.toInstr s = .next (issueCommand c.word s).answerWrite := by
  cases c <;> rfl

/-- The word 4 is PATCH's alone (30_encoding.md R83). -/
theorem toInstr_eq_patch_of_word {c : Command} (h : c.word = 4#32) : c.toInstr = .patch := by
  cases c with
  | patch => rfl
  | nop | init | step | run => exact absurd h (by decide)

end Sys2Proof.Machine
end

section
/-! PROOFS. Noninterference of the slot (O36): two states that agree below the slot agree there after any command, because a
word step reads below the slot, and no check reads the image. -/

namespace Sys2Proof.Machine

/-- Agreement below `a` leaves free how the image is held, the draw and the host's events, and says that the bytes below `a` are
the same. -/
theorem State.agreeBelow_iff_exists {a : Nat} {s t : State} :
    s.agreeBelow a t ↔
      ∃ m d i, t = { s with img := m, draw := d, inputs := i } ∧ ∀ b, b < a → s.imgByte b = t.imgByte b := by
  constructor
  · rintro ⟨hacc, hpoly, hlen, hptr, hpatched, hcmd, hel, hrange, hseq, hresp, himg⟩
    refine ⟨t.img, t.draw, t.inputs, ?_, himg⟩
    rw [hacc, hpoly, hlen, hptr, hpatched, hcmd, hel, hrange, hseq, hresp]
  · rintro ⟨m, d, i, rfl, himg⟩
    exact ⟨rfl, rfl, rfl, rfl, rfl, rfl, rfl, rfl, rfl, rfl, himg⟩

namespace State.agreeBelow

variable {a : Nat} {s t : State}

/-! ## What agrees -/

/-- What the commands' checks and the loop of RUN read: LEN and PTR alone. -/
theorem checks_eq (h : s.agreeBelow a t) : t.len = s.len ∧ t.lenOk = s.lenOk ∧ t.slot = s.slot ∧ t.ptr = s.ptr := by
  obtain ⟨m, d, i, rfl, -⟩ := agreeBelow_iff_exists.1 h
  exact ⟨rfl, rfl, rfl, rfl⟩

theorem imgByte_eq (h : s.agreeBelow a t) {b : Nat} (hb : b < a) : s.imgByte b = t.imgByte b := by
  obtain ⟨-, -, -, -, -, -, -, -, -, -, himg⟩ := h
  exact himg b hb

/-- A read that ends at or below `a` answers the same. -/
theorem memRead_eq (h : s.agreeBelow a t) {i n : Nat} (hi : i + n ≤ a) : s.memRead i n = t.memRead i n :=
  memRead_congr i n fun _ _ hb => h.imgByte_eq (by omega)

/-! ## What keeps the agreement -/

/-- An update that neither reads nor writes the image. -/
theorem map (h : s.agreeBelow a t) (f : State → State)
    (hf : ∀ u m d i, f { u with img := m, draw := d, inputs := i } = { f u with img := m, draw := d, inputs := i })
    (himg : ∀ u, (f u).imgByte = u.imgByte) : (f s).agreeBelow a (f t) := by
  obtain ⟨m, d, i, rfl, hb⟩ := agreeBelow_iff_exists.1 h
  refine agreeBelow_iff_exists.2 ⟨m, d, i, hf s m d i, ?_⟩
  simpa only [himg] using hb

/-- A word step whose word ends at or below `a` (40_crc_arithmetic.md R103). -/
theorem wordStep (h : s.agreeBelow a t) (hp : s.ptr.toNat + 4 ≤ a) : s.wordStep.agreeBelow a t.wordStep := by
  have hword := h.memRead_eq hp
  obtain ⟨m, d, i, rfl, himg⟩ := agreeBelow_iff_exists.1 h
  refine agreeBelow_iff_exists.2 ⟨m, d, i, ?_, himg⟩
  simp only [State.wordStep, Config.wordBytes, hword]

/-- The filling of the slot, which is the same slot in both states. -/
theorem patchSlot (h : s.agreeBelow s.slot t) : s.patchSlot.agreeBelow s.slot t.patchSlot := by
  obtain ⟨-, -, hslot, -⟩ := h.checks_eq
  have hbytes : ∀ b, b < s.slot → s.patchSlot.imgByte b = t.patchSlot.imgByte b := by
    intro b hb
    rw [imgByte_patchSlot_out s b (.inl hb), imgByte_patchSlot_out t b (.inl (hslot ▸ hb)), h.imgByte_eq hb]
  obtain ⟨m, d, i, rfl, -⟩ := agreeBelow_iff_exists.1 h
  exact agreeBelow_iff_exists.2 ⟨_, d, i, rfl, hbytes⟩

/-! ## The commands -/

/-- STEP takes a word only where it ends at or below the slot (41_commands.md R122). -/
theorem cmdStep (h : s.agreeBelow s.slot t) : (cmdStep s).agreeBelow s.slot (cmdStep t) := by
  obtain ⟨-, hl, hslot, hptr⟩ := h.checks_eq
  simp only [Machine.cmdStep, hl, hslot, hptr]
  split_ifs with hbad hrange
  · exact h.map raiseErrLen (fun _ _ _ _ => rfl) fun _ => rfl
  · exact h.map raiseErrRange (fun _ _ _ _ => rfl) fun _ => rfl
  · exact h.wordStep (Nat.not_lt.1 hrange)

/-- RUN takes words while PTR is below the slot; as both are multiples of 4, each word ends at or below the slot
(41_commands.md R124). -/
theorem runLoop {n : Nat} (h : s.agreeBelow s.slot t) (hs : s.slot % 4 = 0) (ha : s.ptr.toNat % 4 = 0) :
    (runLoop n s).agreeBelow s.slot (runLoop n t) := by
  induction n generalizing s t with
  | zero => exact h
  | succ n ih =>
    obtain ⟨-, -, hslot, hptr⟩ := h.checks_eq
    have hcap := s.slot_lt
    simp only [Machine.runLoop, hslot, hptr]
    split_ifs with hp
    · have hnext : s.wordStep.ptr.toNat = s.ptr.toNat + 4 := toNat_ptr_wordStep (by omega)
      exact ih (h.wordStep (by omega)) hs (by omega)
    · exact h

theorem cmdRun (h : s.agreeBelow s.slot t) (ha : s.ptr.toNat % 4 = 0) : (cmdRun s).agreeBelow s.slot (cmdRun t) := by
  obtain ⟨hlen, hl, hslot, hptr⟩ := h.checks_eq
  simp only [Machine.cmdRun, hlen, hl, hslot, hptr]
  split_ifs with hbad hrange
  · exact h.map raiseErrLen (fun _ _ _ _ => rfl) fun _ => rfl
  · exact h.map raiseErrRange (fun _ _ _ _ => rfl) fun _ => rfl
  · exact h.runLoop (slot_mod_four (by simpa using hbad)) ha

/-- PATCH writes only where its checks pass, and they pass in both states or in neither (41_commands.md R125). -/
theorem cmdPatch (h : s.agreeBelow s.slot t) : (cmdPatch s).agreeBelow s.slot (cmdPatch t) := by
  obtain ⟨-, hl, hslot, hptr⟩ := h.checks_eq
  simp only [Machine.cmdPatch, hl, hslot, hptr]
  split_ifs with hbad hseq
  · exact h.map raiseErrLen (fun _ _ _ _ => rfl) fun _ => rfl
  · exact h.map raiseErrSeq (fun _ _ _ _ => rfl) fun _ => rfl
  · exact h.patchSlot

/-- Whatever word is written to CMD. -/
theorem issueCommand (h : s.agreeBelow s.slot t) (ha : s.ptr.toNat % 4 = 0) (v : Word) :
    (issueCommand v s).agreeBelow s.slot (issueCommand v t) := by
  unfold Machine.issueCommand
  cases decodeCommand v with
  | error e => exact h.map raiseErrCmd (fun _ _ _ _ => rfl) fun _ => rfl
  | ok c =>
    cases c with
    | nop => exact h
    | init => exact h.map cmdInit (fun _ _ _ _ => rfl) fun _ => rfl
    | step => exact h.cmdStep
    | run => exact h.cmdRun ha
    | patch => exact h.cmdPatch

end State.agreeBelow

/-- Settles O36: the agreement is kept by `State.agreeBelow.issueCommand`, and a changed byte is one that a PATCH has in its
slot (`CommandEffect.imgByte_changed`). -/
theorem engineNeverReadsTheSlot : Obligations.EngineNeverReadsTheSlot := by
  intro c s t hc hinv hagree
  obtain ⟨halign, -, -⟩ := hinv
  obtain ⟨c, rfl⟩ : ∃ k : Command, c = k.toInstr := by
    simp only [List.mem_cons, List.not_mem_nil, or_false] at hc
    rcases hc with rfl | rfl | rfl | rfl | rfl
    exacts [⟨.nop, rfl⟩, ⟨.init, rfl⟩, ⟨.step, rfl⟩, ⟨.run, rfl⟩, ⟨.patch, rfl⟩]
  have hchanged : ∀ a, (issueCommand c.word s).imgByte a ≠ s.imgByte a →
      c.word = 4#32 ∧ s.atEnd = true ∧ s.len.toNat - 4 ≤ a ∧ a < s.len.toNat :=
    fun a => (issueCommand_effect c.word s).imgByte_changed
  refine ⟨_, _, exec_toInstr c s, exec_toInstr c t,
    (hagree.issueCommand halign c.word).map State.answerWrite (fun _ _ _ _ => rfl) fun _ => rfl,
    fun a hout => ?_, fun hne => ?_⟩
  · by_contra hb
    obtain ⟨-, -, hlo, hhi⟩ := hchanged a hb
    have hslot : s.slot = s.len.toNat - 4 := rfl
    omega
  · funext a
    by_contra hb
    obtain ⟨hword, -⟩ := hchanged a hb
    exact hne (toInstr_eq_patch_of_word hword)

end Sys2Proof.Machine
end

section
/-! SUPPORT. The accesses as instructions, one equation each: a register access, and an image access whose OFFSET is a multiple
of its size. -/

namespace Sys2Proof.Machine

theorem exec_readInstr (r : Reg) (s : State) : exec r.readInstr s = .next (s.answer ⟨regRead s r, false⟩) := by
  cases r <;> rfl

theorem exec_writeInstr (r : Reg) (v : Word) (s : State) :
    exec (r.writeInstr v) s = .next ((regWrite s v r).answer ⟨0#32, false⟩) := by
  cases r <;> rfl

theorem exec_lb (off : Offset) (s : State) : exec (.lb off) s = .next (s.answer ⟨s.memRead off.toNat 1, false⟩) :=
  congrArg _ (imgLoad_of_aligned s (Nat.mod_one _))

theorem exec_lh_of_aligned {off : Offset} (s : State) (ha : off.toNat % 2 = 0) :
    exec (.lh off) s = .next (s.answer ⟨s.memRead off.toNat 2, false⟩) :=
  congrArg _ (imgLoad_of_aligned s ha)

theorem exec_lw_of_aligned {off : Offset} (s : State) (ha : off.toNat % 4 = 0) :
    exec (.lw off) s = .next (s.answer ⟨s.memRead off.toNat 4, false⟩) :=
  congrArg _ (imgLoad_of_aligned s ha)

theorem exec_sb (off : Offset) (v : Word) (s : State) :
    exec (.sb off v) s = .next ((s.memWrite off.toNat 1 v).answer ⟨0#32, false⟩) :=
  congrArg _ (imgStore_of_aligned v s (Nat.mod_one _))

theorem exec_sh_of_aligned {off : Offset} (v : Word) (s : State) (ha : off.toNat % 2 = 0) :
    exec (.sh off v) s = .next ((s.memWrite off.toNat 2 v).answer ⟨0#32, false⟩) :=
  congrArg _ (imgStore_of_aligned v s ha)

theorem exec_sw_of_aligned {off : Offset} (v : Word) (s : State) (ha : off.toNat % 4 = 0) :
    exec (.sw off v) s = .next ((s.memWrite off.toNat 4 v).answer ⟨0#32, false⟩) :=
  congrArg _ (imgStore_of_aligned v s ha)

end Sys2Proof.Machine
end

section
/-! PROOFS. A transaction of the port, taken and answered (O9, O16). What a descriptor decodes to is an aligned access that its
bit W makes a read or a write, and such an access answers err = 0. -/

namespace Sys2Proof.Machine

theorem State.dropInput_of_cons {s : State} {e : HostEvent} {rest : List HostEvent} (h : s.inputs = e :: rest) :
    s.dropInput = { s with inputs := rest } := by
  rw [State.dropInput, h, List.tail_cons]

/-- Settles O9: the state with the event taken is `State.dropInput`. -/
theorem stepPerformsTheDecodedTransaction : Obligations.StepPerformsTheDecodedTransaction := by
  intro s d v rest i hs hd
  rw [← State.dropInput_of_cons hs]
  simp only [step, hs, hd]

/-- The accesses that a descriptor whose bit W is `w` can stand for, with `v` as their wdata (30_encoding.md R85): an image
access is aligned. -/
inductive PortAccess (v : Word) : Bool → Instr → Prop
  | readReg (r : Reg) : PortAccess v false r.readInstr
  | writeReg (r : Reg) : PortAccess v true (r.writeInstr v)
  | lb (off : Offset) : PortAccess v false (.lb off)
  | lh (off : Offset) (ha : off.toNat % 2 = 0) : PortAccess v false (.lh off)
  | lw (off : Offset) (ha : off.toNat % 4 = 0) : PortAccess v false (.lw off)
  | sb (off : Offset) : PortAccess v true (.sb off v)
  | sh (off : Offset) (ha : off.toNat % 2 = 0) : PortAccess v true (.sh off v)
  | sw (off : Offset) (ha : off.toNat % 4 = 0) : PortAccess v true (.sw off v)

theorem portAccess_of_decodeImg {w : Bool} {size : BitVec 2} {off : Offset} {v : Word} {i : Instr}
    (h : decodeImg w size off v = .ok i) : PortAccess v w i := by
  unfold decodeImg at h
  split at h
  · cases w <;> cases h
    exacts [.lb off, .sb off]
  split at h
  · split at h
    · next ha =>
      cases w <;> cases h
      exacts [.lh off ha, .sh off ha]
    · cases h
  split at h
  · split at h
    · next ha =>
      cases w <;> cases h
      exacts [.lw off ha, .sw off ha]
    · cases h
  · cases h

theorem portAccess_of_decodeAccess {d v : Word} {i : Instr} (h : decodeAccess d v = .ok i) :
    PortAccess v (descWrite d) i := by
  unfold decodeAccess at h
  split at h
  · cases h
  split at h
  · cases h
  split at h
  · exact portAccess_of_decodeImg h
  split at h
  · cases h
  split at h
  · next r _ =>
    cases hw : descWrite d <;> rw [hw] at h <;> cases h
    exacts [.readReg r, .writeReg r]
  · cases h

/-- A register write leaves the host's side of the port and the draw alone. -/
theorem regWrite_keeps (r : Reg) (v : Word) (s : State) :
    (regWrite s v r).inputs = s.inputs ∧ (regWrite s v r).draw = s.draw ∧ (regWrite s v r).responses = s.responses := by
  cases r with
  | cmd =>
    obtain ⟨-, -, hdraw, hinputs, hresponses⟩ := issueCommand_keeps v s
    exact ⟨hinputs, hdraw, hresponses⟩
  | _ => exact ⟨rfl, rfl, rfl⟩

/-- An access of the port adds one response, with err = 0, and with rdata = 0 where it is a write (20_memory.md R50, the
preamble of 42_bus_access.md). -/
theorem PortAccess.answers {v : Word} {w : Bool} {i : Instr} (h : PortAccess v w i) (s : State) :
    ∃ (u : State) (x : Word), exec i s = .next (u.answer ⟨x, false⟩) ∧
      (u.inputs = s.inputs ∧ u.draw = s.draw ∧ u.responses = s.responses) ∧ (w = true → x = 0#32) := by
  cases h with
  | readReg r => exact ⟨s, _, exec_readInstr r s, ⟨rfl, rfl, rfl⟩, nofun⟩
  | writeReg r => exact ⟨_, _, exec_writeInstr r v s, regWrite_keeps r v s, fun _ => rfl⟩
  | lb off => exact ⟨s, _, exec_lb off s, ⟨rfl, rfl, rfl⟩, nofun⟩
  | lh off ha => exact ⟨s, _, exec_lh_of_aligned s ha, ⟨rfl, rfl, rfl⟩, nofun⟩
  | lw off ha => exact ⟨s, _, exec_lw_of_aligned s ha, ⟨rfl, rfl, rfl⟩, nofun⟩
  | sb off => exact ⟨_, _, exec_sb off v s, ⟨rfl, rfl, rfl⟩, fun _ => rfl⟩
  | sh off ha => exact ⟨_, _, exec_sh_of_aligned v s ha, ⟨rfl, rfl, rfl⟩, fun _ => rfl⟩
  | sw off ha => exact ⟨_, _, exec_sw_of_aligned v s ha, ⟨rfl, rfl, rfl⟩, fun _ => rfl⟩

/-- Settles O16: a descriptor that does not decode is answered by the bus error, one that does by its access
(`PortAccess.answers`). -/
theorem eachTransactionGetsOneResponse : Obligations.EachTransactionGetsOneResponse := by
  intro s t r rest hs hstep
  have hdrop := State.dropInput_of_cons hs
  cases hd : decodeAccess r.desc r.wdata with
  | error e =>
    simp only [step, hs, hd, hdrop, State.busError_eq, Host.Outcome.next.injEq] at hstep
    subst hstep
    exact ⟨rfl, rfl, _, rfl, by simp, fun _ => rfl⟩
  | ok i =>
    obtain ⟨u, x, hexec, ⟨hinputs, hdraw, hresponses⟩, hzero⟩ := (portAccess_of_decodeAccess hd).answers s.dropInput
    simp only [step, hs, hd, hexec, Host.Outcome.next.injEq] at hstep
    subst hstep
    rw [hdrop] at hinputs
    exact ⟨hinputs, hdraw, _, congrArg _ hresponses, by simp, fun hw => hzero (by simpa [descWrite] using hw)⟩

end Sys2Proof.Machine
end

section
/-! SUPPORT. The image as one byte array: what a read answers after a write, of the same width and of another. -/

namespace Sys2Proof.Machine

@[simp] theorem State.memRead_answer (s : State) (r : Response) : (s.answer r).memRead = s.memRead := rfl

@[simp] theorem State.memWrite_answer (s : State) (r : Response) (i n : Nat) (v : Word) :
    (s.answer r).memWrite i n v = (s.memWrite i n v).answer r := rfl

/-- `MemRead(i, 1)` is the byte at i, zero-extended (30_encoding.md R82). -/
theorem memRead_one (f : Nat → Byte) (i : Nat) : memRead f i 1 = 0#24 ++ f i := by
  simp [memRead, BitVec.setWidth_eq_append]

/-- A `MemWrite` of one byte, read back anywhere. -/
theorem State.imgByte_memWrite_one (s : State) (i : Nat) (v : Word) (a : Nat) :
    (s.memWrite i 1 v).imgByte a = if a = i then v.extractLsb' 0 8 else s.imgByte a := by
  by_cases h : a = i
  · subst h
    simpa using s.imgByte_memWrite_in a 1 v 0 (by omega)
  · rw [if_neg h, s.imgByte_memWrite_out i 1 v a (by omega)]

/-- A word read after a word write answers the word (20_memory.md R57). -/
theorem State.memRead_memWrite_four (s : State) (i : Nat) (v : Word) : (s.memWrite i 4 v).memRead i 4 = v := by
  apply BitVec.eq_of_getLsbD_eq
  intro j hj
  rw [State.memRead, getLsbD_memRead _ _ _ _ le_rfl, s.imgByte_memWrite_in i 4 v (j / 8) (by omega)]
  simp [hj, Nat.mod_lt, Nat.div_add_mod]

/-- The bytes of an aligned word have the offsets that follow it: their OFFSET does not wrap. -/
theorem toNat_offset_add {off : Offset} (ha : off.toNat % 4 = 0) {k : Nat} (hk : k < 4) :
    (off + BitVec.ofNat 20 k).toNat = off.toNat + k := by
  have hoff := off.isLt
  rw [BitVec.toNat_add, BitVec.toNat_ofNat]
  omega

end Sys2Proof.Machine
end

section
/-! PROOFS. Accesses of different widths (O45), and the patched slot as the host reads it (O30). -/

namespace Sys2Proof.Machine

/-- Settles O45: every access is a `MemRead` or `MemWrite` of the one image, and no OFFSET within a word wraps. -/
theorem mixedWidthsSeeOneByteArray : Obligations.MixedWidthsSeeOneByteArray := by
  refine ⟨fun s off v k ha hk => ?_, fun s off a b c d ha => ?_, fun s off v ha => ?_⟩
  · simp only [execAll, exec_sw_of_aligned v s ha, exec_lb, toNat_offset_add ha hk]
    exact ⟨_, rfl, by simp [State.memRead, memRead_one, s.imgByte_memWrite_in _ 4 v k hk]⟩
  · have h1 := toNat_offset_add ha (k := 1) (by omega)
    have h2 := toNat_offset_add ha (k := 2) (by omega)
    have h3 := toNat_offset_add ha (k := 3) (by omega)
    simp only [execAll, exec_sb, exec_lw_of_aligned _ ha, h1, h2, h3]
    exact ⟨_, rfl, by simp [State.memRead, memRead_four, State.imgByte_memWrite_one]⟩
  · simp only [execAll, exec_sw_of_aligned v s ha, exec_lw_of_aligned _ ha]
    exact ⟨_, rfl, by simp [State.memRead_memWrite_four]⟩

/-- The slot of a valid LEN begins below IMG_CAP, so that LEN - 4 fits an OFFSET. -/
theorem toNat_slotOffset {s : State} (h : s.lenOk = true) : (BitVec.ofNat 20 (s.len.toNat - 4)).toNat = s.slot := by
  obtain ⟨-, hlo, hcap⟩ := s.lenOk_iff.1 h
  exact (BitVec.toNat_ofNat _ _).trans (Nat.mod_eq_of_lt (by omega))

theorem exec_patch_of_atEnd {s : State} (h : s.atEnd = true) :
    exec .patch s = .next (s.patchSlot.answer ⟨0#32, false⟩) := by
  obtain ⟨hl, hp⟩ := s.atEnd_iff.1 h
  rw [← cmdPatch_of_eq_slot hl hp]
  rfl

/-- The word in a patched slot is RESULT (20_memory.md R54). -/
theorem memRead_patchSlot (s : State) : s.patchSlot.memRead s.slot 4 = bswap32 s.acc :=
  s.memRead_memWrite_four s.slot (bswap32 s.acc)

/-- Settles O30: the slot holds `bswap32` of ACC little-endian (`imgByte_patchSlot_in`), and LW reads it back so. -/
theorem patchedSlotReadsAsResult : Obligations.PatchedSlotReadsAsResult := by
  intro s t hend hexec
  cases (exec_patch_of_atEnd hend).symm.trans hexec
  have hl := State.lenOk_of_atEnd hend
  have hoff := toNat_slotOffset hl
  obtain ⟨-, hlo, -⟩ := s.lenOk_iff.1 hl
  have hslot : s.slot = s.len.toNat - 4 := rfl
  have hbyte : ∀ k, k < 4 → s.patchSlot.imgByte (s.len.toNat - (4 - k)) = s.acc.extractLsb' (8 * (3 - k)) 8 := by
    intro k hk
    rw [← imgByte_patchSlot_in s k hk]
    congr 1
    omega
  refine ⟨?_, rfl, hbyte 0 (by omega), hbyte 1 (by omega), hbyte 2 (by omega), hbyte 3 (by omega)⟩
  rw [exec_lw_of_aligned _ (by rw [hoff, State.slot_mod_four hl]), hoff, State.memRead_answer, memRead_patchSlot]

end Sys2Proof.Machine
end

section
/-! PROOFS. What repeats without effect (O35). A repeated write finds its bytes in place, and in canonical form that is the same
list; RUN and PATCH end in a state that they leave alone. -/

namespace Sys2Proof.Machine

/-! ## Reads and ignored writes -/

/-- An image read answers, aligned or not, and does no more. -/
theorem imgLoad_answers (n : Nat) (off : Offset) (s : State) : ∃ r, imgLoad n off s = s.answer r := by
  by_cases ha : off.toNat % n = 0
  · exact ⟨_, imgLoad_of_aligned s ha⟩
  · exact ⟨_, imgLoad_of_misaligned s ha⟩

/-! ## Repeating an instruction -/

/-- Performed again at once, the instruction adds a response and nothing else (20_memory.md R62). -/
def Repeats (i : Instr) (s : State) : Prop := ∃ t r, exec i s = .next t ∧ exec i t = .next (t.answer r)

theorem Repeats.exec_again {i : Instr} {s t : State} (h : Repeats i s) (ht : exec i s = .next t) :
    ∃ r, exec i t = .next (t.answer r) := by
  obtain ⟨u, r, hu, hr⟩ := h
  cases hu.symm.trans ht
  exact ⟨r, hr⟩

/-- An instruction that answers an idempotent update repeats, where the update is blind to the responses. -/
theorem repeats_of_idempotent {i : Instr} {s : State} {f : State → State} (hexec : ∀ u, exec i u = .next (f u).answerWrite)
    (hanswer : ∀ u r, f (u.answer r) = (f u).answer r) (hsame : f (f s) = f s) : Repeats i s :=
  ⟨_, ⟨0#32, false⟩, hexec s, by simp only [hexec, State.answerWrite_eq, hanswer, hsame]⟩

/-! ## Image writes -/

/-- In canonical form, a `MemWrite` done twice is the same list of bytes as done once. -/
theorem Memory.writeBytes_writeBytes_same {i n : Nat} (v : Word) {m : Memory} (hm : Memory.wf m = true)
    (hi : i + n ≤ Config.imgCap) :
    Memory.writeBytes i n v (Memory.writeBytes i n v m) = Memory.writeBytes i n v m := by
  have hrising : ∀ {m}, Memory.wf m = true → Memory.rising m = true := fun h => ((Bool.and_eq_true _ _).mp h).1
  have hw := Memory.wf_writeBytes i n v m hm hi
  refine Memory.ext_of_rising (hrising (Memory.wf_writeBytes i n v _ hw hi)) (hrising hw) fun a => ?_
  by_cases hin : i ≤ a ∧ a < i + n
  · obtain ⟨k, rfl⟩ := Nat.exists_eq_add_of_le hin.1
    rw [Memory.lookup_writeBytes_in i n v _ k (by omega), Memory.lookup_writeBytes_in i n v m k (by omega)]
  · exact Memory.lookup_writeBytes_out i n v _ a (by omega)

theorem State.memWrite_memWrite_same {s : State} {i n : Nat} (v : Word) (h : s.Inv) (hi : i + n ≤ Config.imgCap) :
    (s.memWrite i n v).memWrite i n v = s.memWrite i n v := by
  obtain ⟨-, -, hwf⟩ := h
  exact congrArg (fun m => { s with img := m }) (Memory.writeBytes_writeBytes_same v hwf hi)

/-- An image write repeats, aligned or not. -/
theorem repeats_of_imgStore {i : Instr} {s : State} {n : Nat} {off : Offset} {v : Word}
    (hexec : ∀ u, exec i u = .next (imgStore n off v u)) (hn : n = 1 ∨ n = 2 ∨ n = 4) (h : s.Inv) : Repeats i s := by
  by_cases ha : off.toNat % n = 0
  · have hsame := State.memWrite_memWrite_same v h (offset_add_size_le_imgCap off hn ha)
    exact ⟨_, ⟨0#32, false⟩, hexec s, by simp only [hexec, imgStore_of_aligned _ _ ha, State.memWrite_answer, hsame]⟩
  · exact ⟨_, ⟨0#32, true⟩, hexec s, by simp only [hexec, imgStore_of_misaligned _ _ ha]⟩

/-! ## RUN and PATCH -/

theorem runLoop_answer (n : Nat) (s : State) (r : Response) : runLoop n (s.answer r) = (runLoop n s).answer r := by
  induction n generalizing s with
  | zero => rfl
  | succ n ih =>
    rw [runLoop, runLoop, apply_ite (State.answer · r), ← ih]
    rfl

/-- RUN neither reads nor drops a response. -/
theorem cmdRun_answer (s : State) (r : Response) : cmdRun (s.answer r) = (cmdRun s).answer r := by
  simp only [cmdRun, apply_ite (State.answer · r), ← runLoop_answer]
  rfl

/-- PATCH neither reads nor drops a response. -/
theorem cmdPatch_answer (s : State) (r : Response) : cmdPatch (s.answer r) = (cmdPatch s).answer r := by
  simp only [cmdPatch, apply_ite (State.answer · r)]
  rfl

/-- At END there is no word for RUN to take (41_commands.md R124). -/
theorem cmdRun_of_atEnd {s : State} (h : s.atEnd = true) : cmdRun s = s := by
  obtain ⟨hl, hp⟩ := s.atEnd_iff.1 h
  rw [cmdRun_of_aligned s hl (by rw [hp, State.slot_mod_four hl]) hp.le, hp, Nat.sub_self]
  rfl

/-- A RUN whose checks pass ends at END (41_commands.md R124). -/
theorem cmdRun_atEnd {s : State} (hl : s.lenOk = true) (ha : s.ptr.toNat % 4 = 0) (hp : s.ptr.toNat ≤ s.slot) :
    (cmdRun s).atEnd = true := by
  have halign := State.slot_mod_four hl
  have hcap := s.slot_lt
  have hptr : s.ptr.toNat + 4 * ((s.slot - s.ptr.toNat) / 4) = s.slot := by omega
  rw [cmdRun_of_aligned s hl ha hp, iterate_wordStep_eq _ s (by omega), hptr]
  refine (State.atEnd_iff _).2 ⟨hl, ?_⟩
  exact (BitVec.toNat_ofNat _ _).trans (Nat.mod_eq_of_lt (by omega))

theorem cmdRun_cmdRun_same {s : State} (h : s.Inv) : cmdRun (cmdRun s) = cmdRun s := by
  obtain ⟨ha, -, -⟩ := h
  cases hl : s.lenOk with
  | false =>
    rw [cmdRun_of_lenOk_false hl]
    exact cmdRun_of_lenOk_false (s := s.raiseErrLen) hl
  | true =>
    by_cases hp : s.slot < s.ptr.toNat
    · rw [cmdRun_of_past hl hp]
      exact cmdRun_of_past (s := s.raiseErrRange) hl hp
    · exact cmdRun_of_atEnd (cmdRun_atEnd hl ha (by omega))

theorem patchSlot_patchSlot_same {s : State} (h : s.Inv) (hl : s.lenOk = true) : s.patchSlot.patchSlot = s.patchSlot := by
  obtain ⟨-, hlo, hcap⟩ := s.lenOk_iff.1 hl
  have hfits : s.slot + Config.slotBytes ≤ Config.imgCap := by
    simp only [State.slot, Config.slotBytes, Config.imgCap]
    omega
  exact congrArg (fun u : State => { u with patched := true }) (State.memWrite_memWrite_same (bswap32 s.acc) h hfits)

theorem cmdPatch_cmdPatch_same {s : State} (h : s.Inv) : cmdPatch (cmdPatch s) = cmdPatch s := by
  cases hl : s.lenOk with
  | false =>
    rw [cmdPatch_of_lenOk_false hl]
    exact cmdPatch_of_lenOk_false (s := s.raiseErrLen) hl
  | true =>
    by_cases hp : s.ptr.toNat = s.slot
    · rw [cmdPatch_of_eq_slot hl hp, cmdPatch_of_eq_slot (s := s.patchSlot) hl hp, patchSlot_patchSlot_same h hl]
    · rw [cmdPatch_of_ne_slot hl hp]
      exact cmdPatch_of_ne_slot (s := s.raiseErrSeq) hl hp

/-! ## The second STEP -/

theorem exec_step_of_ok {s : State} (hl : s.lenOk = true) (hp : s.ptr.toNat + 4 ≤ s.slot) :
    exec .step s = .next s.wordStep.answerWrite := by
  rw [← cmdStep_of_ok hl hp]
  rfl

/-- Where two words are left, two STEPs take one each. -/
theorem exec_step_twice {s : State} (hl : s.lenOk = true) (hp : s.ptr.toNat + 8 ≤ s.slot) :
    ∃ t u, exec .step s = .next t ∧ exec .step t = .next u ∧ t.ptr.toNat = s.ptr.toNat + 4 ∧
      u.ptr.toNat = s.ptr.toNat + 8 ∧ u.acc = wordUpdate t.acc (s.memRead (s.ptr.toNat + 4) 4) s.poly := by
  have hcap := s.slot_lt
  have hptr : s.wordStep.ptr.toNat = s.ptr.toNat + 4 := State.toNat_ptr_wordStep (by omega)
  have hptr' : s.wordStep.wordStep.ptr.toNat = s.wordStep.ptr.toNat + 4 := State.toNat_ptr_wordStep (by omega)
  refine ⟨_, _, exec_step_of_ok hl (by omega), exec_step_of_ok (s := s.wordStep.answerWrite) hl ?_, hptr, ?_, ?_⟩
  · change s.wordStep.ptr.toNat + 4 ≤ s.slot
    omega
  · change s.wordStep.wordStep.ptr.toNat = s.ptr.toNat + 8
    omega
  · rw [← hptr]
    rfl

/-- Settles O35: reads and ignored writes are answers alone, idempotent updates and image writes repeat, STEP moves on. -/
theorem onlyStepIsNotIdempotent : Obligations.OnlyStepIsNotIdempotent := by
  refine ⟨fun s off j => ?_, fun s v j => ?_, fun s t off v hinv i hi hexec => Repeats.exec_again ?_ hexec,
    fun s hl hp => exec_step_twice hl hp⟩
  · have hreg : ∀ r : Reg, ∃ a, exec r.readInstr s = .next (s.answer a) := fun r => ⟨_, exec_readInstr r s⟩
    obtain ⟨b, hb⟩ := imgLoad_answers 1 off s
    obtain ⟨h, hh⟩ := imgLoad_answers 2 off s
    obtain ⟨w, hw⟩ := imgLoad_answers 4 off s
    simp only [List.forall_mem_cons]
    exact ⟨hreg .cmd, hreg .status, hreg .poly, hreg .len, hreg .ptr, hreg .acc, hreg .result, hreg .seed, hreg (.rsvd j),
      ⟨b, congrArg _ hb⟩, ⟨h, congrArg _ hh⟩, ⟨w, congrArg _ hw⟩, nofun⟩
  · have hreg : ∀ r : Reg, regWrite s v r = s → ∃ a, exec (r.writeInstr v) s = .next (s.answer a) :=
      fun r hr => ⟨_, by rw [exec_writeInstr, hr]⟩
    simp only [List.forall_mem_cons]
    exact ⟨hreg .status rfl, hreg .ptr rfl, hreg .acc rfl, hreg .result rfl, hreg .seed rfl, hreg (.rsvd j) rfl, nofun⟩
  · simp only [List.mem_cons, List.not_mem_nil, or_false] at hi
    rcases hi with rfl | rfl | rfl | rfl | rfl | rfl | rfl | rfl | rfl
    · exact repeats_of_idempotent (f := fun u => { u with poly := v }) (fun _ => rfl) (fun _ _ => rfl) rfl
    · exact repeats_of_idempotent (f := fun u => { u with len := lenOperand v }) (fun _ => rfl) (fun _ _ => rfl) rfl
    · exact repeats_of_imgStore (fun _ => rfl) (.inl rfl) hinv
    · exact repeats_of_imgStore (fun _ => rfl) (.inr (.inl rfl)) hinv
    · exact repeats_of_imgStore (fun _ => rfl) (.inr (.inr rfl)) hinv
    · exact repeats_of_idempotent (f := cmdNop) (fun _ => rfl) (fun _ _ => rfl) rfl
    · exact repeats_of_idempotent (f := cmdInit) (fun _ => rfl) (fun _ _ => rfl) rfl
    · exact repeats_of_idempotent (fun _ => rfl) cmdRun_answer (cmdRun_cmdRun_same hinv)
    · exact repeats_of_idempotent (fun _ => rfl) cmdPatch_answer (cmdPatch_cmdPatch_same hinv)

end Sys2Proof.Machine
end

section
/-! PROOFS. Decoder and encoder agree (O1, O2): both follow one relation between descriptors and the transactions they stand for. -/

namespace Sys2Proof

/-- The descriptor of a transaction that carries `v` as its wdata (30_encoding.md R81, R85): an image access is aligned. -/
inductive DescriptorOf (v : Word) : Instr → Word → Prop
  | readReg (r : Reg) : DescriptorOf v r.readInstr (regReadWord r)
  | writeReg (r : Reg) : DescriptorOf v (r.writeInstr v) (regWriteWord r)
  | lb (off : Offset) : DescriptorOf v (.lb off) (accessWord true false 0#2 off)
  | lh (off : Offset) (ha : off.toNat % 2 = 0) : DescriptorOf v (.lh off) (accessWord true false 1#2 off)
  | lw (off : Offset) (ha : off.toNat % 4 = 0) : DescriptorOf v (.lw off) (accessWord true false 2#2 off)
  | sb (off : Offset) : DescriptorOf v (.sb off v) (accessWord true true 0#2 off)
  | sh (off : Offset) (ha : off.toNat % 2 = 0) : DescriptorOf v (.sh off v) (accessWord true true 1#2 off)
  | sw (off : Offset) (ha : off.toNat % 4 = 0) : DescriptorOf v (.sw off v) (accessWord true true 2#2 off)

theorem descriptorOf_of_decodeImg {w : Bool} {size : BitVec 2} {off : Offset} {v : Word} {i : Instr}
    (h : decodeImg w size off v = .ok i) : DescriptorOf v i (accessWord true w size off) := by
  unfold decodeImg at h
  split at h
  · next hsize =>
    subst hsize
    cases w <;> cases h
    exacts [.lb off, .sb off]
  split at h
  · next hsize =>
    subst hsize
    split at h
    · next ha =>
      cases w <;> cases h
      exacts [.lh off ha, .sh off ha]
    · cases h
  split at h
  · next hsize =>
    subst hsize
    split at h
    · next ha =>
      cases w <;> cases h
      exacts [.lw off ha, .sw off ha]
    · cases h
  · cases h

/-- What decodes is the descriptor of what it decodes to. -/
theorem descriptorOf_of_decodeAccess {d v : Word} {i : Instr} (h : decodeAccess d v = .ok i) : DescriptorOf v i d := by
  unfold decodeAccess at h
  split at h
  · cases h
  next hrsvd =>
  rw [eq_accessWord_of_descRsvd (not_not.1 hrsvd)]
  split at h
  · cases h
  split at h
  · next himg =>
    rw [himg]
    exact descriptorOf_of_decodeImg h
  next himg =>
  split at h
  · cases h
  next hsize =>
  rw [Bool.eq_false_of_not_eq_true himg, not_not.1 hsize]
  split at h
  · next r hr =>
    rw [eq_offset_of_decodeReg hr]
    cases hw : descWrite d <;> rw [hw] at h <;> cases h
    exacts [.readReg r, .writeReg r]
  · cases h

namespace DescriptorOf

variable {d v : Word} {i : Instr}

/-- A transaction's descriptor decodes to it. -/
theorem decodeAccess_eq (h : DescriptorOf v i d) : decodeAccess d v = .ok i := by
  cases h with
  | readReg r | writeReg r => simp [decodeAccess, regReadWord, regWriteWord, decodeReg_offset]
  | lb off | lh off ha | lw off ha | sb off | sh off ha | sw off ha => simp [decodeAccess, decodeImg, *]

/-- No descriptor of a transaction is a command word, so that the joint decoder reads it as a descriptor. -/
theorem decodeWords_eq (h : DescriptorOf v i d) : decodeWords d v = .ok i := by
  have hcmd : decodeCommand d = .error .reservedBits := by
    cases h with
    | readReg r | writeReg r => exact decodeCommand_accessWord _ _ _ _ (.inr rfl)
    | lb off | lh off ha | lw off ha | sb off | sh off ha | sw off ha => exact decodeCommand_accessWord _ _ _ _ (.inl rfl)
  rw [decodeWords, hcmd]
  exact h.decodeAccess_eq

theorem wf (h : DescriptorOf v i d) : i.wf = true := by
  cases h with
  | readReg r | writeReg r => cases r <;> rfl
  | lb off | sb off => rfl
  | lh off ha | lw off ha | sh off ha | sw off ha => simpa [Instr.wf] using ha

/-- The encoder sends the descriptor, and after it the wdata where bit W makes it a write. -/
theorem encode_eq (h : DescriptorOf v i d) : encode i = if descWrite d then [d, v] else [d] := by
  cases h with
  | readReg r | writeReg r => cases r <;> simp [Reg.readInstr, Reg.writeInstr, encode, regReadWord, regWriteWord]
  | lb off | lh off ha | lw off ha | sb off | sh off ha | sw off ha => simp [encode]

/-- The words of a transaction read back as it; a read carries the wdata 0. -/
theorem decode_encode (h : DescriptorOf v i d) (hv : descWrite d = false → v = 0#32) : decode (encode i) = some i := by
  rw [h.encode_eq]
  cases hw : descWrite d with
  | true => exact congrArg Except.toOption h.decodeWords_eq
  | false =>
    cases hv hw
    exact congrArg Except.toOption h.decodeWords_eq

end DescriptorOf

theorem decodeAccess_eq_ok_iff {d v : Word} {i : Instr} : decodeAccess d v = .ok i ↔ DescriptorOf v i d :=
  ⟨descriptorOf_of_decodeAccess, DescriptorOf.decodeAccess_eq⟩

theorem decode_encode_toInstr (c : Command) : decode (encode c.toInstr) = some c.toInstr := by
  cases c <;> decide

theorem decode_encode_readInstr (r : Reg) : decode (encode r.readInstr) = some r.readInstr :=
  (DescriptorOf.readReg (v := 0#32) r).decode_encode fun _ => rfl

theorem decode_encode_writeInstr (r : Reg) (v : Word) : decode (encode (r.writeInstr v)) = some (r.writeInstr v) :=
  (DescriptorOf.writeReg r).decode_encode fun h => by simp [regWriteWord] at h

/-- Settles O1: a command by its word, a register access by its register, an image access by `DescriptorOf`. -/
theorem decodeOfEncodeIsTheInstruction : Obligations.DecodeOfEncodeIsTheInstruction := by
  intro i hwf
  cases i with
  | nop => exact decode_encode_toInstr .nop
  | init => exact decode_encode_toInstr .init
  | step => exact decode_encode_toInstr .step
  | run => exact decode_encode_toInstr .run
  | patch => exact decode_encode_toInstr .patch
  | rdCmd => exact decode_encode_readInstr .cmd
  | wrCmd v => exact decode_encode_writeInstr .cmd v
  | rdStatus => exact decode_encode_readInstr .status
  | wrStatus v => exact decode_encode_writeInstr .status v
  | rdPoly => exact decode_encode_readInstr .poly
  | wrPoly v => exact decode_encode_writeInstr .poly v
  | rdLen => exact decode_encode_readInstr .len
  | wrLen v => exact decode_encode_writeInstr .len v
  | rdPtr => exact decode_encode_readInstr .ptr
  | wrPtr v => exact decode_encode_writeInstr .ptr v
  | rdAcc => exact decode_encode_readInstr .acc
  | wrAcc v => exact decode_encode_writeInstr .acc v
  | rdResult => exact decode_encode_readInstr .result
  | wrResult v => exact decode_encode_writeInstr .result v
  | rdSeed => exact decode_encode_readInstr .seed
  | wrSeed v => exact decode_encode_writeInstr .seed v
  | rdRsvd j => exact decode_encode_readInstr (.rsvd j)
  | wrRsvd j v => exact decode_encode_writeInstr (.rsvd j) v
  | lb off => exact (DescriptorOf.lb (v := 0#32) off).decode_encode (by simp)
  | lh off => exact (DescriptorOf.lh (v := 0#32) off (by simpa [Instr.wf] using hwf)).decode_encode (by simp)
  | lw off => exact (DescriptorOf.lw (v := 0#32) off (by simpa [Instr.wf] using hwf)).decode_encode (by simp)
  | sb off v => exact (DescriptorOf.sb off).decode_encode (by simp)
  | sh off v => exact (DescriptorOf.sh off (by simpa [Instr.wf] using hwf)).decode_encode (by simp)
  | sw off v => exact (DescriptorOf.sw off (by simpa [Instr.wf] using hwf)).decode_encode (by simp)

/-- Settles O2: a descriptor that decodes is one of `DescriptorOf`, bit 21 its bit W. -/
theorem encodeOfDecodeIsTheDescriptor : Obligations.EncodeOfDecodeIsTheDescriptor := by
  intro d v i h
  have hd := descriptorOf_of_decodeAccess h
  exact ⟨hd.wf, hd.encode_eq⟩

end Sys2Proof
end

section
/-! PROOFS. The descriptor map as the spec prints it (O3): a row fixes the descriptor's fields but for the OFFSET bits outside its
mask. -/

namespace Sys2Proof

/-! ## The rows by their fields -/

/-- A row that fixes SPACE, W, SIZE and the OFFSET bits of `mask`, which are those of `off` (30_encoding.md R85). -/
def accessRow (mnemonic : String) (img write : Bool) (size : BitVec 2) (off mask : Offset) : TableRow :=
  ⟨mnemonic, accessWord img write size off, 0xFFF#12 ++ mask⟩

/-- The OFFSET bits that a register's rows fix: the reserved registers share two rows, which leave the word number free. -/
def Reg.mask : Reg → Offset
  | .rsvd _ => 0xFFFE3#20
  | .cmd | .status | .poly | .len | .ptr | .acc | .result | .seed => BitVec.allOnes 20

def Reg.readRow (r : Reg) : TableRow :=
  accessRow r.readInstr.mnemonic false false 2#2 (r.offset &&& r.mask) r.mask

def Reg.writeRow (r : Reg) : TableRow :=
  accessRow (r.writeInstr 0#32).mnemonic false true 2#2 (r.offset &&& r.mask) r.mask

/-- The wdata of a register write is no part of its mnemonic. -/
theorem Reg.mnemonic_writeInstr (r : Reg) (v : Word) : (r.writeInstr v).mnemonic = (r.writeInstr 0#32).mnemonic := by
  cases r <;> rfl

/-- The rows of the image accesses, which fix of the OFFSET that it is aligned. -/
def imageRows : List TableRow :=
  [accessRow "LB" true false 0#2 0#20 0#20, accessRow "LH" true false 1#2 0#20 1#20,
   accessRow "LW" true false 2#2 0#20 3#20, accessRow "SB" true true 0#2 0#20 0#20,
   accessRow "SH" true true 1#2 0#20 1#20, accessRow "SW" true true 2#2 0#20 3#20]

/-- The printed patterns and masks are those of the fields. -/
theorem accessRows_eq :
    accessRows =
      [Reg.cmd, .status, .poly, .len, .ptr, .acc, .result, .seed, .rsvd 0#3].flatMap (fun r => [r.readRow, r.writeRow]) ++
        imageRows := by
  decide

theorem Reg.row_rsvd (j : BitVec 3) :
    (Reg.rsvd j).readRow = (Reg.rsvd 0#3).readRow ∧ (Reg.rsvd j).writeRow = (Reg.rsvd 0#3).writeRow := by
  revert j
  decide

theorem mem_accessRows_iff {row : TableRow} :
    row ∈ accessRows ↔ (∃ r : Reg, row = r.readRow ∨ row = r.writeRow) ∨ row ∈ imageRows := by
  rw [accessRows_eq, List.mem_append, List.mem_flatMap]
  refine or_congr_left ⟨?_, ?_⟩
  · rintro ⟨r, -, h⟩
    exact ⟨r, List.mem_pair.1 h⟩
  rintro ⟨r, h⟩
  cases r with
  | rsvd j => exact ⟨.rsvd 0#3, by decide, List.mem_pair.2 (by simpa only [Reg.row_rsvd j] using h)⟩
  | cmd | status | poly | len | ptr | acc | result | seed => exact ⟨_, by decide, List.mem_pair.2 h⟩

/-! ## The words that fit a row -/

theorem getLsbD_accessMask (mask : Offset) {i : Nat} (hi : i < 32) :
    (0xFFF#12 ++ mask : Word).getLsbD i = if i < 20 then mask.getLsbD i else true := by
  have h : (0xFFF#12 ++ mask : Word).getLsbD i = BitVec.getLsbD (w := 12 + 20) (BitVec.allOnes 12 ++ mask) i := rfl
  rw [h, BitVec.getLsbD_append, BitVec.getLsbD_allOnes, decide_eq_true (by omega : i - 20 < 12)]

/-- A row's mask reaches the OFFSET field alone. -/
theorem accessWord_and_mask (img w : Bool) (size : BitVec 2) (off mask : Offset) :
    accessWord img w size off &&& (0xFFF#12 ++ mask) = accessWord img w size (off &&& mask) := by
  apply BitVec.eq_of_getLsbD_eq
  intro i hi
  rw [BitVec.getLsbD_and, getLsbD_accessMask _ hi, getLsbD_accessWord, getLsbD_accessWord]
  by_cases h : i < 20 <;> simp [h]

theorem fits_accessRow_iff {name : String} {img w : Bool} {size : BitVec 2} {pattern mask : Offset} {d : Word} :
    (accessRow name img w size pattern mask).fits d = true ↔
      ∃ off, d = accessWord img w size off ∧ off &&& mask = pattern := by
  rw [TableRow.fits, beq_iff_eq, accessRow]
  constructor
  · intro h
    have hd : d = accessWord img w size (descOffset d) := by
      apply BitVec.eq_of_getLsbD_eq
      intro i hi
      have hbit := congrArg (fun v => v.getLsbD i) h
      simp only [BitVec.getLsbD_and, getLsbD_accessMask _ hi, getLsbD_accessWord] at hbit
      rw [getLsbD_accessWord]
      by_cases h20 : i < 20
      · simp [h20, descOffset]
      · simpa [h20] using hbit
    refine ⟨descOffset d, hd, ?_⟩
    rw [hd, accessWord_and_mask] at h
    simpa using congrArg descOffset h
  · rintro ⟨off, rfl, rfl⟩
    exact accessWord_and_mask img w size off mask

/-- An OFFSET that a register's rows take is the offset of a register with the same rows. -/
theorem Reg.exists_offset_eq {r : Reg} {off : Offset} (h : off &&& r.mask = r.offset &&& r.mask) :
    ∃ q : Reg, off = q.offset ∧ q.readRow = r.readRow ∧ q.writeRow = r.writeRow := by
  cases r with
  | rsvd j =>
    refine ⟨.rsvd (off.extractLsb' 2 3), ?_, by simp only [Reg.row_rsvd, and_self]⟩
    apply BitVec.eq_of_getLsbD_eq
    intro i hi
    have hbit := congrArg (fun o => o.getLsbD i) h
    simp only [Reg.mask, Reg.offset, BitVec.getLsbD_and, BitVec.getLsbD_append, BitVec.getLsbD_extractLsb'] at hbit ⊢
    interval_cases i <;> simp at hbit ⊢ <;> exact hbit
  | cmd | status | poly | len | ptr | acc | result | seed =>
    exact ⟨_, BitVec.and_allOnes.symm.trans (h.trans BitVec.and_allOnes), rfl, rfl⟩

theorem and_one_eq_zero_iff (off : Offset) : off &&& 1#20 = 0#20 ↔ off.toNat % 2 = 0 := by
  simp [BitVec.toNat_eq, Nat.and_one_is_mod]

theorem and_three_eq_zero_iff (off : Offset) : off &&& 3#20 = 0#20 ↔ off.toNat % 4 = 0 := by
  simp [BitVec.toNat_eq, Nat.and_two_pow_sub_one_eq_mod _ 2]

/-! ## The map and the decoder -/

theorem exists_row_of_mem_imageRows {name : String} {w : Bool} {size : BitVec 2} {mask off : Offset}
    (hrow : accessRow name true w size 0#20 mask ∈ imageRows) (hoff : off &&& mask = 0#20) :
    ∃ row ∈ accessRows, row.fits (accessWord true w size off) = true ∧ row.mnemonic = name :=
  ⟨_, mem_accessRows_iff.2 (.inr hrow), fits_accessRow_iff.2 ⟨off, rfl, hoff⟩, rfl⟩

/-- Every transaction's descriptor fits a row with its mnemonic. -/
theorem DescriptorOf.exists_row {d v : Word} {i : Instr} (h : DescriptorOf v i d) :
    ∃ row ∈ accessRows, row.fits d = true ∧ row.mnemonic = i.mnemonic := by
  cases h with
  | readReg r =>
    exact ⟨r.readRow, mem_accessRows_iff.2 (.inl ⟨r, .inl rfl⟩), fits_accessRow_iff.2 ⟨r.offset, rfl, rfl⟩, rfl⟩
  | writeReg r =>
    exact ⟨r.writeRow, mem_accessRows_iff.2 (.inl ⟨r, .inr rfl⟩), fits_accessRow_iff.2 ⟨r.offset, rfl, rfl⟩,
      (r.mnemonic_writeInstr v).symm⟩
  | lb off => exact exists_row_of_mem_imageRows (name := "LB") (by decide) BitVec.and_zero
  | lh off ha => exact exists_row_of_mem_imageRows (name := "LH") (by decide) ((and_one_eq_zero_iff off).2 ha)
  | lw off ha => exact exists_row_of_mem_imageRows (name := "LW") (by decide) ((and_three_eq_zero_iff off).2 ha)
  | sb off => exact exists_row_of_mem_imageRows (name := "SB") (by decide) BitVec.and_zero
  | sh off ha => exact exists_row_of_mem_imageRows (name := "SH") (by decide) ((and_one_eq_zero_iff off).2 ha)
  | sw off ha => exact exists_row_of_mem_imageRows (name := "SW") (by decide) ((and_three_eq_zero_iff off).2 ha)

/-- A descriptor that fits a row is that of a transaction with the row's mnemonic, whatever the wdata. -/
theorem exists_descriptorOf_of_fits {row : TableRow} (hrow : row ∈ accessRows) {d : Word} (hfits : row.fits d = true)
    (v : Word) : ∃ i, DescriptorOf v i d ∧ i.mnemonic = row.mnemonic := by
  rcases mem_accessRows_iff.1 hrow with ⟨r, rfl | rfl⟩ | himg
  · obtain ⟨off, rfl, hoff⟩ := fits_accessRow_iff.1 hfits
    obtain ⟨q, rfl, hread, -⟩ := Reg.exists_offset_eq hoff
    exact ⟨_, .readReg q, (congrArg TableRow.mnemonic hread :)⟩
  · obtain ⟨off, rfl, hoff⟩ := fits_accessRow_iff.1 hfits
    obtain ⟨q, rfl, -, hwrite⟩ := Reg.exists_offset_eq hoff
    exact ⟨_, .writeReg q, (q.mnemonic_writeInstr v).trans (congrArg TableRow.mnemonic hwrite :)⟩
  · simp only [imageRows, List.mem_cons, List.not_mem_nil, or_false] at himg
    rcases himg with rfl | rfl | rfl | rfl | rfl | rfl <;> obtain ⟨off, rfl, hoff⟩ := fits_accessRow_iff.1 hfits
    exacts [⟨_, .lb off, rfl⟩, ⟨_, .lh off ((and_one_eq_zero_iff off).1 hoff), rfl⟩,
      ⟨_, .lw off ((and_three_eq_zero_iff off).1 hoff), rfl⟩, ⟨_, .sb off, rfl⟩,
      ⟨_, .sh off ((and_one_eq_zero_iff off).1 hoff), rfl⟩, ⟨_, .sw off ((and_three_eq_zero_iff off).1 hoff), rfl⟩]

/-- Settles O3. Rows that a descriptor fits both have the mnemonic of the one transaction it decodes to, and no two rows have the
same mnemonic. -/
theorem descriptorMapDecidesTheTransaction : Obligations.DescriptorMapDecidesTheTransaction := by
  refine ⟨fun d v i h => (descriptorOf_of_decodeAccess h).exists_row, fun d v r hr hfits => ?_,
    fun d r hr q hq hrfits hqfits => ?_⟩
  · obtain ⟨i, hi, hmnemonic⟩ := exists_descriptorOf_of_fits hr hfits v
    exact ⟨i, hi.decodeAccess_eq, hmnemonic⟩
  · obtain ⟨i, hi, hir⟩ := exists_descriptorOf_of_fits hr hrfits 0#32
    obtain ⟨j, hj, hjq⟩ := exists_descriptorOf_of_fits hq hqfits 0#32
    cases hi.decodeAccess_eq.symm.trans hj.decodeAccess_eq
    have hnodup : (accessRows.map TableRow.mnemonic).Nodup := by decide
    exact List.inj_on_of_nodup_map hnodup hr hq (hir.symm.trans hjq)

end Sys2Proof
end

section
/-! PROOFS. What decodes to nothing: the descriptors of a bus error (O4) and the reserved command words (O5). -/

namespace Sys2Proof

/-- The REG window's offsets are the multiples of 4 below 0x40 (30_encoding.md R86 (d), (e)). -/
theorem decodeReg_eq_error_iff (off : Offset) :
    (∃ e, decodeReg off = .error e) ↔ off.toNat % 4 ≠ 0 ∨ 0x40 ≤ off.toNat := by
  unfold decodeReg
  split
  · next h => simp [h]
  split
  · next h => simpa using .inr h
  next ha hb =>
  have hok : ¬ (off.toNat % 4 ≠ 0 ∨ 0x40 ≤ off.toNat) := not_or.2 ⟨ha, hb⟩
  simp only [hok, iff_false, not_exists]
  intro e
  split_ifs <;> nofun

/-- An image access is rejected for its SIZE or its alignment (30_encoding.md R86 (b), (f)). -/
theorem decodeImg_eq_error_iff (w : Bool) (size : BitVec 2) (off : Offset) (v : Word) :
    (∃ e, decodeImg w size off v = .error e) ↔ size = 3#2 ∨ off.toNat % 2 ^ size.toNat ≠ 0 := by
  have hsize : size = 0#2 ∨ size = 1#2 ∨ size = 2#2 ∨ size = 3#2 := by
    revert size
    decide
  rcases hsize with rfl | rfl | rfl | rfl
  · simp [decodeImg, Nat.mod_one]
  · by_cases ha : off.toNat % 2 = 0 <;> simp [decodeImg, ha]
  · by_cases ha : off.toNat % 4 = 0 <;> simp [decodeImg, ha]
  · simp [decodeImg]

/-- The cases of 30_encoding.md R86: RSVD and SIZE = 3 are looked at first, and then the cases of the space. -/
theorem decodeAccess_eq_error_iff (d v : Word) :
    (∃ e, decodeAccess d v = .error e) ↔
      (descRsvd d ≠ 0#8 ∨ descSize d = 3#2 ∨ (descImg d = false ∧ descSize d ≠ 2#2) ∨
        (descImg d = false ∧ (descOffset d).toNat % 4 ≠ 0) ∨ (descImg d = false ∧ 0x40 ≤ (descOffset d).toNat) ∨
        (descImg d = true ∧ (descOffset d).toNat % 2 ^ (descSize d).toNat ≠ 0)) := by
  unfold decodeAccess
  split
  · next hrsvd => simp [hrsvd]
  next hrsvd =>
  split
  · next hsize => simp [hsize]
  next hsize =>
  split
  · next himg => simp [hrsvd, hsize, himg, decodeImg_eq_error_iff]
  next himg =>
  split
  · next hword => simp [himg, hword]
  next hword =>
  have hreg := decodeReg_eq_error_iff (descOffset d)
  split
  · next r hr => simpa [hr, hrsvd, hsize, himg, hword] using hreg
  · next e he => simpa [he, hrsvd, hsize, himg, hword] using hreg

/-- Settles O4: the fields of R86 are those that the decoder reads. -/
theorem busErrorDescriptorsAreExactlyTheSixCases : Obligations.BusErrorDescriptorsAreExactlyTheSixCases :=
  decodeAccess_eq_error_iff

/-- A command word is reserved for its RSVD or its OP (30_encoding.md R83). -/
theorem decodeCommand_eq_error_iff (v : Word) :
    (∃ e, decodeCommand v = .error e) ↔ cmdRsvd v ≠ 0#28 ∨ 5 ≤ (cmdOp v).toNat := by
  unfold decodeCommand
  split
  · next h => simp [h]
  next h =>
  have hop : ∀ op : BitVec 4, 5 ≤ op.toNat ↔ op ≠ 0x0#4 ∧ op ≠ 0x1#4 ∧ op ≠ 0x2#4 ∧ op ≠ 0x3#4 ∧ op ≠ 0x4#4 := by
    decide
  rw [hop, or_iff_right h]
  split_ifs <;> simp [*]

/-- Settles O5: a word that selects a command is its word (`decodeCommand_eq_ok_iff`). -/
theorem commandWordsAreExactlyFive : Obligations.CommandWordsAreExactlyFive :=
  fun v => ⟨decodeCommand_eq_ok_iff v .nop, decodeCommand_eq_ok_iff v .init, decodeCommand_eq_ok_iff v .step,
    decodeCommand_eq_ok_iff v .run, decodeCommand_eq_ok_iff v .patch, decodeCommand_eq_error_iff v⟩

end Sys2Proof
end

section
/-! PROOFS. Host programs as words, pseudo-instructions and text (O6, O7, O8, O58). -/

namespace Sys2Proof

/-- The words of a request read as that request, where a read carries no wdata (30_encoding.md R88). -/
theorem decodeProgramFrom_words_append {r : Request} (h : descWrite r.desc = false → r.wdata = 0#32) (ws : List Word) :
    decodeProgramFrom none (r.words ++ ws) = (decodeProgramFrom none ws).map (r :: ·) := by
  obtain ⟨d, v⟩ := r
  cases hw : descWrite d with
  | true => simp [Request.words, decodeProgramFrom, hw]
  | false =>
    obtain rfl : v = 0#32 := h hw
    simp [Request.words, decodeProgramFrom, hw]

/-- Settles O7, by induction on the requests. -/
theorem hostProgramWordsReadBack : Obligations.HostProgramWordsReadBack := by
  intro rs h
  unfold decodeProgram
  induction rs with
  | nil => rfl
  | cons r rs ih =>
    obtain ⟨hr, hrs⟩ := List.forall_mem_cons.1 h
    rw [List.flatMap_cons, decodeProgramFrom_words_append hr, ih hrs]
    rfl

/-- Settles O6: the words and their instructions are closed terms. -/
theorem sampleWordsDecodeAsTheSpecPrints : Obligations.SampleWordsDecodeAsTheSpecPrints := by
  unfold Obligations.SampleWordsDecodeAsTheSpecPrints
  decide

/-- Settles O8: each expansion computes to the printed descriptors, whatever its wdata. -/
theorem pseudoInstructionsExpandAsPrinted : Obligations.PseudoInstructionsExpandAsPrinted :=
  ⟨rfl, rfl, rfl, rfl, rfl, fun _ => rfl, fun _ => rfl, rfl⟩

/-- Settles O58: the text reads as the four items, and the other lines as their rejections. -/
theorem hostTextReadsAsTransactions : Obligations.HostTextReadsAsTransactions := by
  refine ⟨⟨[.store .word 0x10#20 0x44332211#32, .rd (.rsvd 7#3), .load .word 2#20, .wr .len 20#32], ?_, ?_⟩, ?_, ?_, ?_⟩
  · decide
  · decide
  · decide
  · decide
  · decide

end Sys2Proof
end

section
/-! SUPPORT. Transactions that the host issues (20_memory.md R55, R56): a command of CMD and a register read, as functions of the
state. -/

namespace Sys2Proof.Machine

/-- A transaction that decodes is performed at once, and the host's other events stay. -/
theorem transact_of_descriptorOf {d v : Word} {i : Instr} (h : DescriptorOf v i d) {s t : State} (ht : exec i s = .next t) :
    transact ⟨d, v⟩ s = some t := by
  have hstep : step (s.pushRequest ⟨d, v⟩) = .next t := by
    rw [← ht]
    exact stepPerformsTheDecodedTransaction _ d v s.inputs i rfl h.decodeAccess_eq
  rw [transact, hstep]

theorem transact_read (r : Reg) (s : State) :
    transact ⟨regReadWord r, 0#32⟩ s = some (s.answer ⟨regRead s r, false⟩) :=
  transact_of_descriptorOf (.readReg r) (exec_readInstr r s)

theorem transact_command (c : Command) (s : State) :
    transact c.request s = some (issueCommand c.word s).answerWrite :=
  transact_of_descriptorOf (.writeReg .cmd) (exec_writeInstr .cmd c.word s)

end Sys2Proof.Machine
end

section
/-! PROOFS. The polling loop (O59): a read of STATUS answers END, and where it is 0 the loop goes on after one STEP. -/

namespace Sys2Proof.Machine

/-- Bit 0 of STATUS is END (42_bus_access.md R143). -/
theorem getLsbD_statusWord_zero (s : State) : s.statusWord.getLsbD 0 = s.atEnd := by
  simp only [State.statusWord, BitVec.getLsbD_setWidth, BitVec.getLsbD_append, BitVec.getLsbD_ofBool]
  simp

/-- The state once the host has read STATUS. -/
def State.polled (s : State) : State := s.answer ⟨s.statusWord, false⟩

/-- One round of the loop (30_encoding.md R90). -/
theorem untilEnd_succ (fuel : Nat) (s : State) :
    untilEnd (fuel + 1) s = if s.atEnd then some s.polled else untilEnd fuel (cmdStep s.polled).answerWrite := by
  have hread : transact readStatus s = some s.polled := transact_read .status s
  have hstep : transact Command.step.request s.polled = some (cmdStep s.polled).answerWrite := transact_command .step s.polled
  have hend : lastReadEnd s.polled = s.atEnd := getLsbD_statusWord_zero s
  rw [untilEnd, hread, Option.bind_some, hend, hstep, Option.bind_some]

/-! ## Where words are left -/

/-- The loop over `k` words that end at the slot: two responses for each word, and one for the read that answers END. -/
theorem untilEnd_of_words {k : Nat} {s : State} (hl : s.lenOk = true) (hk : s.ptr.toNat + 4 * k = s.slot) {fuel : Nat}
    (hfuel : k < fuel) :
    ∃ t, untilEnd fuel s = some t ∧ t.atEnd = true ∧ t.ptr.toNat = s.slot ∧
      t.acc = crcWords s.imgByte s.poly k s.ptr.toNat s.acc ∧
      t.responses.length = s.responses.length + 2 * k + 1 ∧ t.errLen = s.errLen ∧ t.errRange = s.errRange := by
  obtain ⟨fuel, rfl⟩ := Nat.exists_eq_add_one_of_ne_zero (Nat.ne_zero_of_lt hfuel)
  rw [untilEnd_succ]
  induction k generalizing s fuel with
  | zero =>
    have hend : s.atEnd = true := s.atEnd_iff.2 ⟨hl, hk⟩
    rw [if_pos hend]
    exact ⟨_, rfl, hend, hk, rfl, rfl, rfl, rfl⟩
  | succ k ih =>
    have hcap := s.slot_lt
    have hnot : ¬ s.atEnd = true := fun hend => by
      obtain ⟨-, hp⟩ := s.atEnd_iff.1 hend
      omega
    have hptr : s.wordStep.ptr.toNat = s.ptr.toNat + 4 := State.toNat_ptr_wordStep (by omega)
    have hnext : s.wordStep.ptr.toNat + 4 * k = s.slot := by omega
    have hstep : cmdStep s.polled = s.polled.wordStep :=
      cmdStep_of_ok (s := s.polled) hl (show s.ptr.toNat + 4 ≤ s.slot by omega)
    obtain ⟨fuel, rfl⟩ := Nat.exists_eq_add_one_of_ne_zero (show fuel ≠ 0 by omega)
    obtain ⟨t, ht, hend, hp, hacc, hlen, herr⟩ := ih (s := s.polled.wordStep.answerWrite) hl hnext fuel (by omega)
    rw [if_neg hnot, hstep, untilEnd_succ]
    refine ⟨t, ht, hend, hp, ?_, ?_, herr⟩
    · change t.acc = crcWords s.imgByte s.poly k s.wordStep.ptr.toNat s.wordStep.acc at hacc
      rw [hacc, hptr]
      rfl
    · change t.responses.length = s.responses.length + 1 + 1 + 2 * k + 1 at hlen
      omega

/-! ## Where STEP is refused -/

/-- LENOK fails, or LEN is below PTR + 4: STEP processes nothing (30_encoding.md R90). -/
def State.stuck (s : State) : Prop := s.lenOk = false ∨ s.len.toNat < s.ptr.toNat + 4

/-- At END the slot is at PTR, so that LEN = PTR + 4. -/
theorem State.stuck.atEnd_eq_false {s : State} (h : s.stuck) : s.atEnd = false := by
  refine Bool.eq_false_of_not_eq_true fun hend => ?_
  obtain ⟨hl, hp⟩ := s.atEnd_iff.1 hend
  obtain ⟨-, hlo, -⟩ := s.lenOk_iff.1 hl
  have hslot : s.slot = s.len.toNat - 4 := rfl
  rcases h with hbad | hpast
  · exact Bool.false_ne_true (hbad.symm.trans hl)
  · omega

/-- A refused STEP sets an error bit and does no more. -/
theorem State.stuck.cmdStep_eq {s : State} (h : s.stuck) : cmdStep s = s.raiseErrLen ∨ cmdStep s = s.raiseErrRange := by
  cases hl : s.lenOk with
  | false => exact .inl (by simp [cmdStep, hl])
  | true =>
    have hpast : s.slot < s.ptr.toNat + 4 := by
      have hslot : s.slot = s.len.toNat - 4 := rfl
      have hlen : s.len.toNat < s.ptr.toNat + 4 := h.resolve_left (by simp [hl])
      omega
    exact .inr (by simp [cmdStep, hl, Config.wordBytes, hpast])

/-- A refused STEP leaves LEN and PTR alone, and the loop is as stuck as before. -/
theorem State.stuck.untilEnd_eq_none {s : State} (h : s.stuck) (fuel : Nat) : untilEnd fuel s = none := by
  induction fuel generalizing s with
  | zero => rfl
  | succ fuel ih =>
    have hpolled : s.polled.stuck := h
    rw [untilEnd_succ, if_neg (by simp [h.atEnd_eq_false])]
    rcases hpolled.cmdStep_eq with hstep | hstep <;> rw [hstep] <;> exact ih h

/-- Settles O59: with `(slot - PTR) / 4` words left the loop is `untilEnd_of_words`, and where STEP is refused it is stuck. -/
theorem pollingLoopStopsAtEndOrNever : Obligations.PollingLoopStopsAtEndOrNever := by
  intro s
  refine ⟨fun hl ha hp fuel hfuel => ?_, fun h => ?_⟩
  · have hslot : s.slot = s.len.toNat - 4 := rfl
    have halign := State.slot_mod_four hl
    exact untilEnd_of_words hl (by omega) hfuel
  · have hstuck : s.stuck := h
    refine ⟨hstuck.untilEnd_eq_none, _, rfl, ?_⟩
    rcases hstuck.cmdStep_eq with hstep | hstep <;> rw [hstep] <;> exact ⟨hstuck.atEnd_eq_false, rfl⟩

end Sys2Proof.Machine
end

section
/-! PROOFS. The source's calls as host programs (O60): INIT and RUN leave the image CRC at END, where PATCH fills the slot and a
read of RESULT answers it. -/

namespace Sys2Proof.Machine

/-- INIT and RUN leave the image CRC in ACC and END = 1, and write no image byte (41_commands.md R127). -/
theorem cmdRun_cmdInit {s : State} (hl : s.lenOk = true) :
    (cmdRun (cmdInit s)).acc = imageCrc s.imgByte s.len.toNat s.poly ∧ (cmdRun (cmdInit s)).atEnd = true ∧
      (cmdRun (cmdInit s)).slot = s.slot ∧ (cmdRun (cmdInit s)).imgByte = s.imgByte := by
  have hl' : (cmdInit s).lenOk = true := hl
  have hslot : (cmdInit s).slot = s.len.toNat - 4 := rfl
  have hcap := (cmdInit s).slot_lt
  have hptr : (cmdInit s).ptr.toNat = 0 := rfl
  have hrun := cmdRun_of_aligned (cmdInit s) hl' rfl (Nat.zero_le _)
  refine ⟨?_, cmdRun_atEnd hl' rfl (Nat.zero_le _), ?_, ?_⟩ <;> rw [hrun]
  · have hwords : ((cmdInit s).slot - (cmdInit s).ptr.toNat) / 4 = s.len.toNat / Config.wordBytes - 1 := by
      simp only [Config.wordBytes]
      omega
    rw [iterate_wordStep_eq _ _ (by omega), hwords]
    rfl
  · obtain ⟨-, hlen, -⟩ := iterate_wordStep_keeps (((cmdInit s).slot - (cmdInit s).ptr.toNat) / 4) (cmdInit s)
    rw [State.slot, hlen]
    rfl
  · exact imgByte_iterate_wordStep _ _

/-- The responses of INIT and RUN lie upon the state that the two commands leave. -/
theorem issueCommand_init_run (s : State) :
    issueCommand Command.run.word (issueCommand Command.init.word s).answerWrite = (cmdRun (cmdInit s)).answerWrite :=
  cmdRun_answer _ _

/-- The program `crc` (30_encoding.md R89). -/
theorem runProgram_crc (fuel : Nat) (s : State) :
    runProgram fuel [.pseudo .crc] s = some (cmdPatch (cmdRun (cmdInit s)).answerWrite.answerWrite).answerWrite := by
  change (transactAll [Command.init.request, Command.run.request, Command.patch.request] s).bind _ = _
  simp only [transactAll, transact_command, Option.bind_some, issueCommand_init_run]
  rfl

/-- The program `init`, `run`, `rd REG.RESULT` (30_encoding.md R91). -/
theorem runProgram_init_run_rdResult (fuel : Nat) (s : State) :
    runProgram fuel [.pseudo .init, .pseudo .run, .rd .result] s =
      some ((cmdRun (cmdInit s)).answerWrite.answerWrite.answer ⟨bswap32 (cmdRun (cmdInit s)).acc, false⟩) := by
  change (transactAll [Command.init.request] s).bind (fun t => (transactAll [Command.run.request] t).bind fun u =>
    (transactAll [⟨regReadWord .result, 0#32⟩] u).bind some) = _
  simp only [transactAll, transact_command, transact_read, Option.bind_some, issueCommand_init_run]
  rfl

/-- PATCH at END, upon the responses of two commands. -/
theorem cmdPatch_of_atEnd {u : State} (h : u.atEnd = true) :
    cmdPatch u.answerWrite.answerWrite = u.patchSlot.answerWrite.answerWrite := by
  obtain ⟨hl, hp⟩ := u.atEnd_iff.1 h
  exact cmdPatch_of_eq_slot (s := u.answerWrite.answerWrite) hl hp

/-- Settles O60: both programs go through the state that INIT and RUN leave (`cmdRun_cmdInit`). -/
theorem sourceCallsAreHostPrograms : Obligations.SourceCallsAreHostPrograms := by
  intro s fuel hl
  obtain ⟨hacc, hend, hslot, himg⟩ := cmdRun_cmdInit hl
  rw [runProgram_crc, runProgram_init_run_rdResult, ← hacc]
  generalize cmdRun (cmdInit s) = u at *
  have hread : u.patchSlot.memRead (s.len.toNat - 4) 4 = bswap32 u.acc := by
    rw [← memRead_patchSlot u, hslot]
    rfl
  rw [cmdPatch_of_atEnd hend]
  exact ⟨⟨_, rfl, rfl, rfl, hread⟩, _, rfl, rfl, himg⟩

end Sys2Proof.Machine
end

section
/-! SUPPORT. The rounds of the CRC (40_crc_arithmetic.md R100 to R102): the round's two cases, and `n` rounds as a linear map of
the accumulator that only shifts while the bits shifted out are 0. -/

namespace Sys2Proof.Machine

/-! ## One round -/

theorem crcRound_of_top_set {a : Word} (h : a.getLsbD 31 = true) (p : Word) : crcRound a p = (a <<< 1) ^^^ p :=
  if_pos h

theorem crcRound_of_top_clear {a : Word} (h : a.getLsbD 31 = false) (p : Word) : crcRound a p = a <<< 1 :=
  if_neg (Bool.eq_false_iff.1 h)

@[simp] theorem crcRound_zero (p : Word) : crcRound 0#32 p = 0#32 := crcRound_of_top_clear (by simp) p

@[simp] theorem crcRound_zero_poly (a : Word) : crcRound a 0#32 = a <<< 1 := by simp [crcRound]

/-- Bit 31 of a ^ b is the XOR of their bits 31, and the polynomial enters once for each bit that is set. -/
theorem crcRound_xor (a b p : Word) : crcRound (a ^^^ b) p = crcRound a p ^^^ crcRound b p := by
  have hshift : (a ^^^ b) <<< 1 = a <<< 1 ^^^ b <<< 1 := BitVec.shiftLeft_xor_distrib a b 1
  have htop : (a ^^^ b).getLsbD 31 = (a.getLsbD 31 ^^ b.getLsbD 31) := BitVec.getLsbD_xor
  unfold crcRound
  rw [htop, hshift]
  cases a.getLsbD 31 <;> cases b.getLsbD 31
  · rfl
  · exact BitVec.xor_assoc _ _ _
  · change (a <<< 1 ^^^ b <<< 1) ^^^ p = (a <<< 1 ^^^ p) ^^^ b <<< 1
    ac_rfl
  · change a <<< 1 ^^^ b <<< 1 = (a <<< 1 ^^^ p) ^^^ (b <<< 1 ^^^ p)
    rw [BitVec.xor_comm (b <<< 1), BitVec.xor_assoc, ← BitVec.xor_assoc p, BitVec.xor_self, BitVec.zero_xor]

/-! ## Several rounds -/

theorem crcRounds_eq_iterate (n : Nat) (a p : Word) : crcRounds n a p = (fun t => crcRound t p)^[n] a := by
  induction n generalizing a with
  | zero => rfl
  | succ n ih => exact ih _

theorem crcRounds_add (m n : Nat) (a p : Word) : crcRounds (m + n) a p = crcRounds n (crcRounds m a p) p := by
  simp only [crcRounds_eq_iterate, Nat.add_comm m n, Function.iterate_add_apply]

@[simp] theorem crcRounds_zero (n : Nat) (p : Word) : crcRounds n 0#32 p = 0#32 := by
  induction n with
  | zero => rfl
  | succ n ih => rw [crcRounds, crcRound_zero, ih]

theorem crcRounds_xor (n : Nat) (a b p : Word) : crcRounds n (a ^^^ b) p = crcRounds n a p ^^^ crcRounds n b p := by
  induction n generalizing a b with
  | zero => rfl
  | succ n ih => simp only [crcRounds, crcRound_xor, ih]

theorem crcRounds_zero_poly (n : Nat) (a : Word) : crcRounds n a 0#32 = a <<< n := by
  induction n generalizing a with
  | zero => simp [crcRounds]
  | succ n ih => rw [crcRounds, crcRound_zero_poly, ih, ← BitVec.shiftLeft_add, Nat.add_comm]

/-- Rounds that shift no set bit out are a plain shift, whatever the polynomial. -/
theorem crcRounds_of_lt {n : Nat} {a : Word} (h : a.toNat * 2 ^ n < 2 ^ 32) (p : Word) : crcRounds n a p = a <<< n := by
  induction n generalizing a with
  | zero => simp [crcRounds]
  | succ n ih =>
    have hdouble : a.toNat * 2 * 2 ^ n < 2 ^ 32 := by rwa [Nat.mul_assoc, ← Nat.pow_succ']
    have hlt : a.toNat * 2 < 2 ^ 32 := lt_of_le_of_lt (Nat.le_mul_of_pos_right _ (by positivity)) hdouble
    have htop : a.getLsbD 31 = false := by
      rw [BitVec.getLsbD, Nat.testBit_eq_false_of_lt (by omega)]
    have hshift : (a <<< 1).toNat = a.toNat * 2 := by
      rw [BitVec.toNat_shiftLeft, Nat.shiftLeft_eq, Nat.mod_eq_of_lt hlt]
    rw [crcRounds, crcRound_of_top_clear htop, ih (by rwa [hshift]), ← BitVec.shiftLeft_add, Nat.add_comm]

/-! ## The word update -/

@[simp] theorem wordUpdate_zero_poly (a w : Word) : wordUpdate a w 0#32 = 0#32 := by
  rw [wordUpdate, crcRounds_zero_poly]
  exact BitVec.shiftLeft_eq_zero le_rfl

@[simp] theorem wordUpdate_self (a p : Word) : wordUpdate a a p = 0#32 := by
  rw [wordUpdate, BitVec.xor_self, crcRounds_zero]

theorem wordUpdate_xor_zero (a w p : Word) : wordUpdate (a ^^^ w) 0#32 p = wordUpdate a w p := by
  simp only [wordUpdate, BitVec.xor_zero]

/-- The update is linear in the accumulator, as its 32 rounds are. -/
theorem wordUpdate_xor (a b p : Word) :
    wordUpdate (a ^^^ b) 0#32 p = wordUpdate a 0#32 p ^^^ wordUpdate b 0#32 p := by
  simp only [wordUpdate, BitVec.xor_zero, crcRounds_xor]

end Sys2Proof.Machine
end

section
/-! SUPPORT. The bytes of a word that is written as its four bytes. -/

namespace Sys2Proof.Machine

/-- The bytes of a word written as its four bytes. -/
theorem extractLsb'_fourBytes (a b c d : Byte) :
    (a ++ b ++ c ++ d : Word).extractLsb' 24 8 = a ∧ (a ++ b ++ c ++ d : Word).extractLsb' 16 8 = b ∧
      (a ++ b ++ c ++ d : Word).extractLsb' 8 8 = c ∧ (a ++ b ++ c ++ d : Word).extractLsb' 0 8 = d := by
  have above {w : Nat} (x : BitVec w) (y : Byte) (i : Nat) :
      (x ++ y).extractLsb' (i + 8) 8 = x.extractLsb' i 8 := by
    rw [BitVec.extractLsb'_append_eq_of_le (Nat.le_add_left 8 i), Nat.add_sub_cancel]
  exact ⟨(above _ d 16).trans ((above _ c 8).trans BitVec.extractLsb'_append_eq_left),
    (above _ d 8).trans ((above _ c 0).trans BitVec.extractLsb'_append_eq_right),
    (above _ d 0).trans BitVec.extractLsb'_append_eq_right, BitVec.extractLsb'_append_eq_right⟩

theorem bswap32_fourBytes (a b c d : Byte) : bswap32 (a ++ b ++ c ++ d) = d ++ c ++ b ++ a := by
  obtain ⟨ha, hb, hc, hd⟩ := extractLsb'_fourBytes a b c d
  rw [bswap32, ha, hb, hc, hd]

end Sys2Proof.Machine
end

section
/-! PROOFS. The round and the word update (O17, O18, O19). -/

namespace Sys2Proof.Machine

/-- Settles O17: the two branches of the round. -/
theorem crcRoundShiftsAndDivides : Obligations.CrcRoundShiftsAndDivides :=
  ⟨fun _ p h => crcRound_of_top_set h p, fun _ p h => crcRound_of_top_clear h p, crcRound_zero, by decide, by decide⟩

/-- Settles O18: bit 31 of a ^ b decides as the bits 31 of a and b do together (`crcRound_xor`). -/
theorem crcRoundIsLinear : Obligations.CrcRoundIsLinear :=
  ⟨crcRound_xor, crcRound_zero, crcRound_zero_poly, fun _ p h => crcRound_of_top_clear h p⟩

/-- Settles O19: 32 rounds of 0 are 0, and 32 rounds under p = 0 shift every bit out. -/
theorem wordUpdateIsThirtyTwoRounds : Obligations.WordUpdateIsThirtyTwoRounds := by
  refine ⟨fun a w p => crcRounds_eq_iterate 32 (a ^^^ w) p, wordUpdate_self, wordUpdate_zero_poly, fun a p b => ?_, ?_⟩
  · rw [bswap32_fourBytes]
  · decide +kernel

end Sys2Proof.Machine
end

section
/-! PROOFS. The word update as a remainder over GF(2) (O20): each round multiplies by x modulo G(x) = x^32 + p(x). -/

namespace Sys2Proof.Machine

open Polynomial

/-- A word read as a polynomial over GF(2), bit i the coefficient of x^i (40_crc_arithmetic.md R104). -/
noncomputable def wordPoly (v : Word) : (ZMod 2)[X] := ∑ i ∈ Finset.range 32, if v.getLsbD i then X ^ i else 0

/-- The divisor G(x) = x^32 + p(x). -/
noncomputable def divisorPoly (p : Word) : (ZMod 2)[X] := X ^ 32 + wordPoly p

theorem degree_wordPoly_lt (v : Word) : (wordPoly v).degree < 32 := by
  refine (degree_sum_le _ _).trans_lt ((Finset.sup_lt_iff (by decide)).2 fun i hi => ?_)
  split_ifs
  · simpa [degree_X_pow] using hi
  · rw [degree_zero]
    exact WithBot.bot_lt_coe 32

theorem wordPoly_xor (a b : Word) : wordPoly (a ^^^ b) = wordPoly a + wordPoly b := by
  rw [wordPoly, wordPoly, wordPoly, ← Finset.sum_add_distrib]
  refine Finset.sum_congr rfl fun i _ => ?_
  rw [BitVec.getLsbD_xor]
  cases a.getLsbD i <;> cases b.getLsbD i <;> simp [CharTwo.add_self_eq_zero]

/-- A shift by one multiplies by x, but for the coefficient of x^31, which it drops. -/
theorem X_mul_wordPoly (a : Word) :
    X * wordPoly a = wordPoly (a <<< 1) + if a.getLsbD 31 then X ^ 32 else 0 := by
  have hshift : wordPoly (a <<< 1) = ∑ i ∈ Finset.range 31, if a.getLsbD i then X ^ (i + 1) else 0 := by
    rw [wordPoly, Finset.sum_range_succ']
    simp only [BitVec.getLsbD_shiftLeft]
    refine (add_eq_left.2 (by simp)).trans (Finset.sum_congr rfl fun i hi => ?_)
    simp [Nat.succ_lt_succ (Finset.mem_range.1 hi)]
  rw [hshift, wordPoly, Finset.mul_sum, Finset.sum_range_succ _ 31]
  simp only [mul_ite, mul_zero, ← pow_succ']

/-- A round multiplies by x, and takes G(x) off where the product has the term x^32. -/
theorem wordPoly_crcRound (a p : Word) :
    wordPoly (crcRound a p) = X * wordPoly a + if a.getLsbD 31 then divisorPoly p else 0 := by
  rw [X_mul_wordPoly]
  cases h : a.getLsbD 31 with
  | false => simp [crcRound_of_top_clear h]
  | true =>
    rw [crcRound_of_top_set h, wordPoly_xor, divisorPoly, if_pos rfl, if_pos rfl, add_assoc, CharTwo.add_cancel_left]

/-- `n` rounds multiply by x^n modulo G. -/
theorem divisorPoly_dvd_crcRounds_sub (n : Nat) (a p : Word) :
    divisorPoly p ∣ wordPoly (crcRounds n a p) - wordPoly a * X ^ n := by
  induction n generalizing a with
  | zero => simp [crcRounds]
  | succ n ih =>
    have hround : divisorPoly p ∣ (wordPoly (crcRound a p) - X * wordPoly a) * X ^ n := by
      rw [wordPoly_crcRound, add_sub_cancel_left]
      split_ifs
      · exact dvd_mul_right _ _
      · simp
    have hsum := dvd_add (ih (crcRound a p)) hround
    rw [crcRounds]
    convert hsum using 1
    ring

theorem monic_divisorPoly (p : Word) : (divisorPoly p).Monic := monic_X_pow_add (degree_wordPoly_lt p)

/-- A word is its own remainder modulo G, whose degree is 32. -/
theorem wordPoly_modByMonic (v p : Word) : wordPoly v %ₘ divisorPoly p = wordPoly v := by
  have hdegree : (divisorPoly p).degree = 32 :=
    (degree_add_eq_left_of_degree_lt (by rw [degree_X_pow]; exact degree_wordPoly_lt p)).trans (degree_X_pow 32)
  rw [modByMonic_eq_self_iff (monic_divisorPoly p), hdegree]
  exact degree_wordPoly_lt v

theorem wordPoly_wordUpdate (a w p : Word) :
    wordPoly (wordUpdate a w p) = (wordPoly (a ^^^ w) * X ^ 32) %ₘ divisorPoly p := by
  rw [← wordPoly_modByMonic (wordUpdate a w p) p]
  exact modByMonic_eq_of_dvd_sub (monic_divisorPoly p) (divisorPoly_dvd_crcRounds_sub 32 (a ^^^ w) p)

/-- Settles O20: 32 rounds multiply by x^32 modulo G (`divisorPoly_dvd_crcRounds_sub`), and a word has degree below 32. -/
theorem wordUpdateIsPolynomialRemainder : Obligations.WordUpdateIsPolynomialRemainder :=
  ⟨fun a w p => (wordUpdate_xor_zero a w p).symm, wordUpdate_xor, monic_divisorPoly, wordPoly_wordUpdate⟩

end Sys2Proof.Machine
end

section
/-! PROOFS. The image CRC word by word (O21, O24), and what it does not read (O22). -/

namespace Sys2Proof.Machine

/-- Over an image of `n` words and the slot, the image CRC is `n` word updates (40_crc_arithmetic.md R105). -/
theorem imageCrc_of_words (img : Nat → Byte) (n : Nat) (p : Word) :
    imageCrc img (4 * n + 4) p = crcWords img p n 0 0xFFFFFFFF#32 := by
  have hn : (4 * n + 4) / 4 - 1 = n := by omega
  exact congrArg (crcWords img p · 0 0xFFFFFFFF#32) hn

/-- The image CRC of an image with one word more. -/
theorem imageCrc_succ (img : Nat → Byte) (n : Nat) (p : Word) :
    imageCrc img (4 * n + 8) p = wordUpdate (imageCrc img (4 * n + 4) p) (memRead img (4 * n) 4) p := by
  rw [show 4 * n + 8 = 4 * (n + 1) + 4 by omega, imageCrc_of_words, imageCrc_of_words, crcWords_succ_last, Nat.zero_add]

/-- Settles O21, by `crcWords_succ_last`: the last word is taken last. -/
theorem imageCrcTakesTheWordsInOrder : Obligations.ImageCrcTakesTheWordsInOrder :=
  fun img p => ⟨imageCrc_of_words img 0 p, fun n => by rw [imageCrc_succ, memRead_four]⟩

/-- Settles O24: the last word update yields 0. -/
theorem zeroPolynomialClearsTheImageCrc : Obligations.ZeroPolynomialClearsTheImageCrc := by
  intro img L h4 hlo
  obtain ⟨n, rfl⟩ : ∃ n, L = 4 * n + 8 := ⟨L / 4 - 2, by omega⟩
  rw [imageCrc_succ, wordUpdate_zero_poly]

/-! ## The slot -/

/-- `n` words from offset i read the offsets below i + 4n alone. -/
theorem crcWords_congr {f g : Nat → Byte} {i n : Nat} (h : ∀ a, a < i + 4 * n → f a = g a) (p acc : Word) :
    crcWords f p n i acc = crcWords g p n i acc := by
  induction n with
  | zero => rfl
  | succ n ih =>
    rw [crcWords_succ_last, crcWords_succ_last, ih fun a ha => h a (by omega),
      memRead_congr (i + 4 * n) 4 fun a _ ha => h a (by omega)]

/-- The image CRC reads the bytes below the slot alone (40_crc_arithmetic.md R106). -/
theorem imageCrc_congr {f g : Nat → Byte} {L : Nat} (h4 : L % 4 = 0) (hlo : 4 ≤ L) (h : ∀ a, a < L - 4 → f a = g a)
    (p : Word) : imageCrc f L p = imageCrc g L p := by
  obtain ⟨n, rfl⟩ : ∃ n, L = 4 * n + 4 := ⟨L / 4 - 1, by omega⟩
  rw [imageCrc_of_words, imageCrc_of_words]
  exact crcWords_congr (fun a ha => h a (by omega)) p _

/-- A state that keeps LEN, POLY and the bytes below the slot keeps the image CRC. -/
theorem imageCrc_eq_of_keeps {s t : State} (hl : s.lenOk = true) (hlen : t.len = s.len) (hpoly : t.poly = s.poly)
    (himg : ∀ a, a < s.slot → t.imgByte a = s.imgByte a) :
    imageCrc t.imgByte t.len.toNat t.poly = imageCrc s.imgByte s.len.toNat s.poly := by
  obtain ⟨h4, hlo, -⟩ := s.lenOk_iff.1 hl
  rw [hlen, hpoly]
  exact imageCrc_congr h4 hlo himg s.poly

/-- PATCH writes no byte below the slot. -/
theorem imgByte_cmdPatch_of_lt_slot {s : State} {a : Nat} (ha : a < s.slot) : (cmdPatch s).imgByte a = s.imgByte a := by
  unfold cmdPatch
  split_ifs
  · rfl
  · rfl
  · exact imgByte_patchSlot_out s a (.inl ha)

/-- Settles O22: neither PATCH nor a byte write at the slot or above writes below the slot. -/
theorem imageCrcIgnoresTheSlot : Obligations.ImageCrcIgnoresTheSlot := by
  refine ⟨fun f g L p h4 hlo h => imageCrc_congr h4 hlo h p, fun s t hl hexec => ?_, fun s t off v hl hoff hexec => ?_⟩
  · obtain ⟨hpoly, hlen, -⟩ := issueCommand_keeps Command.patch.word s
    cases hexec
    exact imageCrc_eq_of_keeps hl hlen hpoly fun a ha => imgByte_cmdPatch_of_lt_slot ha
  · rw [exec_sb] at hexec
    cases hexec
    exact imageCrc_eq_of_keeps hl rfl rfl fun a ha => s.imgByte_memWrite_out off.toNat 1 v a (.inl (by omega))

end Sys2Proof.Machine
end

section
/-! PROOFS. The image CRC as a byte-serial CRC (O23): 32 rounds take a word as four byte steps do, its top byte first, because 8
rounds only shift the bits below the top byte. -/

namespace Sys2Proof.Machine

/-- A word is its top byte and the bits below it. -/
theorem word_eq_top_xor_rest (w : Word) :
    w = ((w.extractLsb' 24 8).setWidth 32 <<< 24) ^^^ (w.setWidth 24).setWidth 32 := by
  apply BitVec.eq_of_getLsbD_eq
  intro i hi
  simp only [BitVec.getLsbD_xor, BitVec.getLsbD_shiftLeft, BitVec.getLsbD_setWidth, BitVec.getLsbD_extractLsb']
  by_cases h : i < 24
  · simp [h, hi]
  · simp [h, hi, show i - 24 < 8 by omega, show i - 24 < 32 by omega, show 24 + (i - 24) = i by omega]

/-- Eight rounds shift the bits below the top byte, and lose none of them. -/
theorem crcRounds_eight_rest (w p : Word) : crcRounds 8 ((w.setWidth 24).setWidth 32) p = w <<< 8 := by
  have hlt : ((w.setWidth 24).setWidth 32).toNat * 2 ^ 8 < 2 ^ 32 := by
    have := (w.setWidth 24).isLt
    rw [BitVec.toNat_setWidth_of_le (by omega)]
    omega
  rw [crcRounds_of_lt hlt]
  apply BitVec.eq_of_getLsbD_eq
  intro i hi
  simp only [BitVec.getLsbD_shiftLeft, BitVec.getLsbD_setWidth]
  by_cases h : i < 8
  · simp [h]
  · simp [h, show i - 8 < 24 by omega, show i - 8 < 32 by omega]

/-- The first eight rounds on a ^ w are the byte step of the top byte of w, and leave the rest of w to be taken in. -/
theorem crcRounds_add_eight (n : Nat) (a w p : Word) :
    crcRounds (8 + n) (a ^^^ w) p =
      crcRounds n (crcRounds 8 (a ^^^ ((w.extractLsb' 24 8).setWidth 32 <<< 24)) p ^^^ w <<< 8) p := by
  conv_lhs => rw [word_eq_top_xor_rest w, ← BitVec.xor_assoc, crcRounds_add, crcRounds_xor, crcRounds_eight_rest]

/-- The bytes of a shifted word. -/
theorem extractLsb'_shiftLeft_top (w : Word) {k : Nat} (hk : k ≤ 24) :
    (w <<< k).extractLsb' 24 8 = w.extractLsb' (24 - k) 8 := by
  apply BitVec.eq_of_getLsbD_eq
  intro i hi
  simp only [BitVec.getLsbD_extractLsb', BitVec.getLsbD_shiftLeft]
  simp [hi, show 24 + i < 32 by omega, show ¬ 24 + i < k by omega, show 24 + i - k = 24 - k + i by omega]

/-- A word update is four byte steps, the top byte of the word first. -/
theorem wordUpdate_eq_byteCrc (a w p : Word) :
    wordUpdate a w p =
      byteCrc [w.extractLsb' 24 8, w.extractLsb' 16 8, w.extractLsb' 8 8, w.extractLsb' 0 8] a p := by
  have hnone : w <<< 32 = 0#32 := BitVec.shiftLeft_eq_zero le_rfl
  change crcRounds (8 + 24) (a ^^^ w) p = _
  rw [crcRounds_add_eight, crcRounds_add_eight 16, crcRounds_add_eight 8, crcRounds_add_eight 0]
  simp only [← BitVec.shiftLeft_add, Nat.reduceAdd, hnone, extractLsb'_shiftLeft_top, Nat.reduceLeDiff, Nat.reduceSub,
    BitVec.xor_zero, byteCrc]
  rfl

theorem byteCrc_append (u v : List Byte) (a p : Word) : byteCrc (u ++ v) a p = byteCrc v (byteCrc u a p) p := by
  induction u generalizing a with
  | nil => rfl
  | cons b u ih => exact ih _

/-- The word updates over `n` words are the byte steps over the bytes of each word reversed. -/
theorem crcWords_eq_byteCrc (img : Nat → Byte) (p : Word) (n i : Nat) (a : Word) :
    crcWords img p n i a = byteCrc (reversedWords img n i) a p := by
  induction n generalizing i a with
  | zero => rfl
  | succ n ih =>
    obtain ⟨h3, h2, h1, h0⟩ := extractLsb'_fourBytes (img (i + 3)) (img (i + 2)) (img (i + 1)) (img i)
    rw [crcWords, ih, Config.wordBytes, memRead_four, wordUpdate_eq_byteCrc, h3, h2, h1, h0, ← byteCrc_append]
    rfl

theorem imageCrc_eq_byteCrc (img : Nat → Byte) (L : Nat) (p : Word) :
    imageCrc img L p = byteCrc (reversedWords img (L / 4 - 1) 0) 0xFFFFFFFF#32 p :=
  crcWords_eq_byteCrc img p (L / 4 - 1) 0 0xFFFFFFFF#32

/-- Settles O23 by `imageCrc_eq_byteCrc`; the check over an image is the one over its bytes. -/
theorem imageCrcIsByteSerialOnReversedWords : Obligations.ImageCrcIsByteSerialOnReversedWords := by
  have hcheck : byteCrc [0x34#8, 0x33#8, 0x32#8, 0x31#8, 0x38#8, 0x37#8, 0x36#8, 0x35#8] 0xFFFFFFFF#32 0x04C11DB7#32 =
      0xFEFC54F9#32 := by decide +kernel
  refine ⟨fun img L p _ _ _ => imageCrc_eq_byteCrc img L p, fun img himg => ?_, hcheck, by decide +kernel,
    by decide +kernel⟩
  have hbytes : reversedWords img 2 0 = [0x34#8, 0x33#8, 0x32#8, 0x31#8, 0x38#8, 0x37#8, 0x36#8, 0x35#8] := by
    simp [reversedWords, himg]
  rw [imageCrc_eq_byteCrc, ← hcheck, ← hbytes]

end Sys2Proof.Machine
end

section
/-! PROOFS. STEP (O27). -/

namespace Sys2Proof.Machine

theorem cmdStep_of_lenOk_false {s : State} (hl : s.lenOk = false) : cmdStep s = s.raiseErrLen := by
  simp [cmdStep, hl]

theorem cmdStep_of_past {s : State} (hl : s.lenOk = true) (hp : s.slot < s.ptr.toNat + 4) : cmdStep s = s.raiseErrRange := by
  simp [cmdStep, hl, Config.wordBytes, hp]

/-- The word step with its word written out byte by byte, and PTR as a number (40_crc_arithmetic.md R103). -/
theorem wordStep_eq (s : State) :
    s.wordStep = { s with
      acc := wordUpdate s.acc
        (s.imgByte (s.ptr.toNat + 3) ++ s.imgByte (s.ptr.toNat + 2) ++ s.imgByte (s.ptr.toNat + 1) ++ s.imgByte s.ptr.toNat)
        s.poly
      ptr := BitVec.ofNat 21 (s.ptr.toNat + 4)
      patched := false } := by
  have hptr : s.ptr + 4#21 = BitVec.ofNat 21 (s.ptr.toNat + 4) := by
    rw [BitVec.ofNat_add, BitVec.ofNat_toNat, BitVec.setWidth_eq]
  rw [State.wordStep, State.memRead, Config.wordBytes, memRead_four, hptr]

/-- Settles O27, by the three branches of STEP (41_commands.md R122). -/
theorem stepProcessesOneWord : Obligations.StepProcessesOneWord := by
  have hexec : ∀ s, exec .step s = .next (cmdStep s).answerWrite := exec_toInstr .step
  refine fun s => ⟨fun hl hp => ?_, fun hl => ?_, fun hl hp => ?_⟩
  · rw [exec_step_of_ok hl hp, wordStep_eq]
    rfl
  · rw [hexec, cmdStep_of_lenOk_false hl]
    rfl
  · rw [hexec, cmdStep_of_past hl hp]
    rfl

end Sys2Proof.Machine
end

section
/-! SUPPORT. A CMD write as an instruction, by the command that its word selects (30_encoding.md R83). -/

namespace Sys2Proof.Machine

/-- A word that no clause of R83 reserves is a command's word. -/
theorem exists_word_of_not_reserved {v : Word} (h : ¬ (cmdRsvd v ≠ 0#28 ∨ 5 ≤ (cmdOp v).toNat)) :
    ∃ c : Command, v = c.word := by
  cases hd : decodeCommand v with
  | error e => exact absurd ((decodeCommand_eq_error_iff v).1 ⟨e, hd⟩) h
  | ok c => exact ⟨c, (decodeCommand_eq_ok_iff v c).1 hd⟩

/-- A CMD write of a command's word is that command (42_bus_access.md R142). -/
theorem exec_wrCmd_word (c : Command) (s : State) : exec (.wrCmd c.word) s = exec c.toInstr s :=
  (exec_toInstr c s).symm

/-- A CMD write of a reserved word (41_commands.md R126). -/
theorem exec_wrCmd_of_reserved {v : Word} (h : cmdRsvd v ≠ 0#28 ∨ 5 ≤ (cmdOp v).toNat) (s : State) :
    exec (.wrCmd v) s = .next s.raiseErrCmd.answerWrite := by
  obtain ⟨e, he⟩ := (decodeCommand_eq_error_iff v).2 h
  have hissue : issueCommand v s = s.raiseErrCmd := by rw [issueCommand, he, cmdReserved]
  rw [← hissue]
  rfl

theorem exec_init (s : State) : exec .init s = .next (cmdInit s).answerWrite := exec_toInstr .init s

theorem exec_run (s : State) : exec .run s = .next (cmdRun s).answerWrite := exec_toInstr .run s

theorem exec_patch (s : State) : exec .patch s = .next (cmdPatch s).answerWrite := exec_toInstr .patch s

end Sys2Proof.Machine
end

section
/-! PROOFS. CMD writes, NOP and INIT (O31, O25, O26). -/

namespace Sys2Proof.Machine

/-- Settles O31: a word is reserved (`exec_wrCmd_of_reserved`) or a command's (`exec_wrCmd_word`). -/
theorem cmdWriteIssuesTheCommand : Obligations.CmdWriteIssuesTheCommand :=
  fun s => ⟨exec_wrCmd_word .nop s, exec_wrCmd_word .init s, exec_wrCmd_word .step s, exec_wrCmd_word .run s,
    exec_wrCmd_word .patch s, fun _ h => exec_wrCmd_of_reserved h s⟩

/-- A state that every command but NOP changes: an error bit is set, for INIT to clear, and LENOK fails. -/
def errSeqAtReset : State := { State.reset with errSeq := true }

/-- Settles O25: over `errSeqAtReset`, a reserved word sets ERR_CMD, INIT clears ERR_SEQ, and STEP, RUN and PATCH set
ERR_LEN. -/
theorem nopChangesNothing : Obligations.NopChangesNothing := by
  refine ⟨fun s => exec_toInstr .nop s, fun v hv => ⟨errSeqAtReset, fun r hexec => ?_⟩⟩
  by_cases hreserved : cmdRsvd v ≠ 0#28 ∨ 5 ≤ (cmdOp v).toNat
  · rw [exec_wrCmd_of_reserved hreserved] at hexec
    cases congrArg State.errCmd (Host.Outcome.next.inj hexec)
  · obtain ⟨c, rfl⟩ := exists_word_of_not_reserved hreserved
    have hsame := Host.Outcome.next.inj hexec
    cases c with
    | nop => exact hv rfl
    | init => cases congrArg State.errSeq hsame
    | step | run | patch => cases congrArg State.errLen hsame

/-- Settles O26: with LEN = 4 the slot is at offset 0, where INIT puts PTR. -/
theorem initStartsAComputation : Obligations.InitStartsAComputation := by
  refine fun s => ⟨_, exec_init s, rfl, rfl, fun hlen => (State.atEnd_iff _).2 ⟨?_, ?_⟩⟩
  · exact s.lenOk_iff.2 (by rw [hlen]; decide)
  · change 0 = s.len.toNat - 4
    rw [hlen]
    rfl

end Sys2Proof.Machine
end

section
/-! PROOFS. RUN and PATCH (O28, O29). -/

namespace Sys2Proof.Machine

/-- A RUN whose checks pass, with the words it takes counted from PTR to the slot (41_commands.md R124). -/
theorem cmdRun_eq_of_aligned {s : State} (hl : s.lenOk = true) (ha : s.ptr.toNat % 4 = 0) (hp : s.ptr.toNat ≤ s.slot) :
    cmdRun s = { s with
      acc := crcWords s.imgByte s.poly ((s.slot - s.ptr.toNat) / 4) s.ptr.toNat s.acc
      ptr := BitVec.ofNat 21 s.slot
      patched := s.patched && decide (s.ptr.toNat = s.slot) } := by
  have halign := State.slot_mod_four hl
  have hcap := s.slot_lt
  have hptr : s.ptr.toNat + 4 * ((s.slot - s.ptr.toNat) / 4) = s.slot := by omega
  have hnone : ((s.slot - s.ptr.toNat) / 4 = 0) = (s.ptr.toNat = s.slot) := propext (by omega)
  rw [cmdRun_of_aligned s hl ha hp, iterate_wordStep_eq _ s (by omega), hptr]
  simp only [hnone]

/-- Settles O28, by the three branches of RUN (41_commands.md R124). -/
theorem runProcessesTheRemainingWords : Obligations.RunProcessesTheRemainingWords := by
  refine fun s => ⟨fun hl ha hp => ⟨_, exec_run s, cmdRun_atEnd hl ha hp, ?_⟩, fun hl => ?_, fun hl hp => ?_⟩
  · rw [cmdRun_eq_of_aligned hl ha hp]
    rfl
  · rw [exec_run, cmdRun_of_lenOk_false hl]
    rfl
  · rw [exec_run, cmdRun_of_past hl hp]
    rfl

/-- Settles O29, by the three branches of PATCH (41_commands.md R125); the slot's bytes are those of O30. -/
theorem patchWritesTheSlot : Obligations.PatchWritesTheSlot := by
  refine fun s => ⟨fun hl hp => ?_, fun hl => ?_, fun hl hp => ?_⟩
  · have hend : s.atEnd = true := s.atEnd_iff.2 ⟨hl, hp⟩
    have hexec := exec_patch_of_atEnd hend
    obtain ⟨-, -, h3, h2, h1, h0⟩ := patchedSlotReadsAsResult s _ hend hexec
    obtain ⟨-, hlo, -⟩ := s.lenOk_iff.1 hl
    have hslot : s.slot = s.len.toNat - 4 := rfl
    exact ⟨_, hexec, h3, h2, h1, h0, fun a ha => imgByte_patchSlot_out s a (by omega), rfl⟩
  · rw [exec_patch, cmdPatch_of_lenOk_false hl]
    rfl
  · rw [exec_patch, cmdPatch_of_ne_slot hl hp]
    rfl

end Sys2Proof.Machine
end

section
/-! PROOFS. The order of the checks (O32): the failing checks are clauses of O31, O27, O28 and O29, and a command whose checks
pass sets no error bit. -/

namespace Sys2Proof.Machine

/-- The checks of R123 that a command makes once its word is decoded: LENOK, and then the position of PTR. -/
def State.Passes (s : State) : Command → Prop
  | .nop | .init => True
  | .step => s.lenOk = true ∧ s.ptr.toNat + 4 ≤ s.slot
  | .run => s.lenOk = true ∧ s.ptr.toNat ≤ s.slot
  | .patch => s.lenOk = true ∧ s.ptr.toNat = s.slot

/-- A command whose checks pass sets no error bit. -/
theorem issueCommand_errors_of_passes {s : State} {c : Command} (h : s.Passes c) :
    ((issueCommand c.word s).errCmd = true → s.errCmd = true) ∧
      ((issueCommand c.word s).errLen = true → s.errLen = true) ∧
      ((issueCommand c.word s).errRange = true → s.errRange = true) ∧
      ((issueCommand c.word s).errSeq = true → s.errSeq = true) := by
  cases c with
  | nop => exact ⟨id, id, id, id⟩
  | init => exact ⟨nofun, nofun, nofun, nofun⟩
  | step =>
    obtain ⟨hl, hp⟩ := h
    have hstep : issueCommand Command.step.word s = s.wordStep := cmdStep_of_ok hl hp
    rw [hstep]
    exact ⟨id, id, id, id⟩
  | run =>
    obtain ⟨hl, hp⟩ := h
    obtain ⟨k, hwords, -⟩ := cmdRun_of_ok s hl hp
    have hrun : issueCommand Command.run.word s = State.wordStep^[k] s := hwords
    obtain ⟨-, -, -, -, -, -, hcmd, hlen, hrange, hseq⟩ := iterate_wordStep_keeps k s
    rw [hrun]
    exact ⟨hcmd.symm.trans, hlen.symm.trans, hrange.symm.trans, hseq.symm.trans⟩
  | patch =>
    obtain ⟨hl, hp⟩ := h
    have hpatch : issueCommand Command.patch.word s = s.patchSlot := cmdPatch_of_eq_slot hl hp
    rw [hpatch]
    exact ⟨id, id, id, id⟩

/-- STEP and RUN stop at the slot, from a PTR that meets R38 (a). -/
theorem issueCommand_ptr_le_slot {s : State} {c : Command} (h : s.Passes c) (hc : c.word = 2#32 ∨ c.word = 3#32)
    (ha : s.ptr.toNat % 4 = 0) : (issueCommand c.word s).ptr.toNat ≤ s.slot := by
  have hcap := s.slot_lt
  cases c with
  | nop | init | patch => exact absurd hc (by decide)
  | step =>
    obtain ⟨hl, hp⟩ := h
    have hstep : issueCommand Command.step.word s = s.wordStep := cmdStep_of_ok hl hp
    rw [hstep, State.toNat_ptr_wordStep (by omega)]
    exact hp
  | run =>
    obtain ⟨hl, hp⟩ := h
    have hptr : (issueCommand Command.run.word s).ptr = BitVec.ofNat 21 s.slot :=
      congrArg State.ptr (cmdRun_eq_of_aligned hl ha hp)
    rw [hptr]
    exact (BitVec.toNat_ofNat _ _).trans_le (Nat.mod_le _ _)

/-- Settles O32: each failing check is a clause of the command's own statement, and where none fails the command passes. -/
theorem commandChecksInOrder : Obligations.CommandChecksInOrder := by
  intro s v reserved checked noWordLeft notAtSlot
  obtain ⟨-, -, hstep, hrun, hpatch, hreserved⟩ := cmdWriteIssuesTheCommand s
  obtain ⟨-, hstepLen, hstepRange⟩ := stepProcessesOneWord s
  obtain ⟨-, hrunLen, hrunRange⟩ := runProcessesTheRemainingWords s
  obtain ⟨-, hpatchLen, hpatchSeq⟩ := patchWritesTheSlot s
  refine ⟨hreserved v, ?_, ?_, ?_, fun hdecode hlen hword hslot => ?_⟩
  · rintro (rfl | rfl | rfl) hl
    exacts [hstep.trans (hstepLen hl), hrun.trans (hrunLen hl), hpatch.trans (hpatchLen hl)]
  · rintro hl (⟨rfl, hp⟩ | ⟨rfl, hp⟩)
    exacts [hstep.trans (hstepRange hl hp), hrun.trans (hrunRange hl hp)]
  · rintro hl ⟨rfl, hp⟩
    exact hpatch.trans (hpatchSeq hl hp)
  · obtain ⟨c, rfl⟩ := exists_word_of_not_reserved hdecode
    have hpass : s.Passes c := by
      cases c with
      | nop | init => trivial
      | step => exact ⟨hlen (.inl rfl), Nat.not_lt.1 fun hp => hword (.inl ⟨rfl, hp⟩)⟩
      | run => exact ⟨hlen (.inr (.inl rfl)), Nat.not_lt.1 fun hp => hword (.inr ⟨rfl, hp⟩)⟩
      | patch => exact ⟨hlen (.inr (.inr rfl)), by_contra fun hp => hslot ⟨rfl, hp⟩⟩
    obtain ⟨-, -, -, -, hresponses⟩ := issueCommand_keeps c.word s
    obtain ⟨hc, hl, hr, hq⟩ := issueCommand_errors_of_passes hpass
    exact ⟨_, rfl, congrArg _ hresponses, hc, hl, hr, hq, issueCommand_ptr_le_slot hpass⟩

end Sys2Proof.Machine
end

section
/-! PROOFS. STEPs and then a RUN (O37): a STEP before a RUN takes a word that the RUN would have taken. -/

namespace Sys2Proof.Machine

/-- A word step before a RUN makes no difference to what the RUN leaves. -/
theorem cmdRun_wordStep {s : State} (hl : s.lenOk = true) (ha : s.ptr.toNat % 4 = 0) (hp : s.ptr.toNat + 4 ≤ s.slot) :
    cmdRun s.wordStep = cmdRun s := by
  have hcap := s.slot_lt
  have hptr : s.wordStep.ptr.toNat = s.ptr.toNat + 4 := State.toNat_ptr_wordStep (by omega)
  have hwords : (s.slot - s.ptr.toNat) / 4 = (s.slot - (s.ptr.toNat + 4)) / 4 + 1 := by omega
  rw [cmdRun_of_aligned s.wordStep hl (by omega) (by rw [hptr]; exact hp), cmdRun_of_aligned s hl ha (by omega),
    State.slot_wordStep, hptr, hwords, Function.iterate_succ_apply]

/-- However many STEPs come before it, a RUN leaves the same state, their responses aside (41_commands.md R127). -/
theorem execAll_steps_run {k : Nat} {s : State} (hl : s.lenOk = true) (ha : s.ptr.toNat % 4 = 0)
    (hk : s.ptr.toNat + 4 * k ≤ s.slot) :
    ∃ rs, execAll (List.replicate k .step ++ [.run]) s = .next { cmdRun s with responses := rs } := by
  induction k generalizing s with
  | zero => exact ⟨_, rfl⟩
  | succ k ih =>
    have hcap := s.slot_lt
    have hptr : s.wordStep.ptr.toNat = s.ptr.toNat + 4 := State.toNat_ptr_wordStep (by omega)
    have hnext : s.wordStep.ptr.toNat + 4 * k ≤ s.slot := by omega
    obtain ⟨rs, hrest⟩ := ih (s := s.wordStep.answerWrite) hl (show s.wordStep.ptr.toNat % 4 = 0 by omega) hnext
    refine ⟨rs, ?_⟩
    rw [List.replicate_succ, List.cons_append, execAll, exec_step_of_ok hl (by omega)]
    refine hrest.trans ?_
    rw [State.answerWrite_eq, cmdRun_answer, cmdRun_wordStep hl ha (by omega)]
    rfl

/-- From PTR = 0 and ACC = SEED, a RUN leaves the image CRC (40_crc_arithmetic.md R105). -/
theorem cmdRun_of_start {s : State} (hl : s.lenOk = true) (hptr : s.ptr = 0#21) (hacc : s.acc = 0xFFFFFFFF#32) :
    cmdRun s = { s with
      acc := imageCrc s.imgByte s.len.toNat s.poly
      ptr := BitVec.ofNat 21 s.slot
      patched := s.patched && decide (0 = s.slot) } := by
  have hzero : s.ptr.toNat = 0 := by rw [hptr]; rfl
  have hwords : (s.slot - 0) / 4 = s.len.toNat / Config.wordBytes - 1 := by
    simp only [State.slot, Config.slotBytes, Config.wordBytes]
    omega
  rw [cmdRun_eq_of_aligned hl (by omega) (by omega), hzero, hwords, hacc]
  rfl

/-- After INIT and RUN a program goes on at END with the image CRC in ACC. -/
theorem execAll_init_run {s : State} (hl : s.lenOk = true) (is : List Instr) :
    ∃ t, execAll (.init :: .run :: is) s = execAll is t ∧ t.acc = imageCrc s.imgByte s.len.toNat s.poly ∧
      t.atEnd = true ∧ t.len = s.len ∧ t.ptr.toNat = s.len.toNat - 4 := by
  obtain ⟨hacc, hend, hslot, -⟩ := cmdRun_cmdInit hl
  obtain ⟨-, hlen, -⟩ := issueCommand_keeps Command.run.word (cmdInit s)
  obtain ⟨-, hptr⟩ := (State.atEnd_iff _).1 hend
  refine ⟨(cmdRun (cmdInit s)).answerWrite.answerWrite, ?_, hacc, hend, hlen, hptr.trans hslot⟩
  simp only [execAll, exec_init, exec_run, State.answerWrite_eq, cmdRun_answer]

/-- Settles O37: STEPs before a RUN make no difference (`execAll_steps_run`), the RUN leaves the image CRC
(`cmdRun_of_start`, `execAll_init_run`), and a PATCH at END fills the slot as O30 says. -/
theorem incrementalEqualsWholeImage : Obligations.IncrementalEqualsWholeImage := by
  refine ⟨fun s k hl hptr hacc hk => ?_, fun s hl => ?_, fun s hl => ?_⟩
  · have hzero : s.ptr.toNat = 0 := by rw [hptr]; rfl
    have hslot : s.slot = s.len.toNat - 4 := rfl
    obtain ⟨rs, hexec⟩ := execAll_steps_run (k := k) hl (by omega) (by omega)
    rw [cmdRun_of_start hl hptr hacc] at hexec
    exact ⟨_, hexec, rfl, (BitVec.toNat_ofNat _ _).trans (Nat.mod_eq_of_lt s.slot_lt), rfl, rfl⟩
  · obtain ⟨t, hexec, hacc, -, -, hptr⟩ := execAll_init_run hl []
    exact ⟨t, hexec, hacc, hptr⟩
  · obtain ⟨t, hexec, hacc, hend, hlen, hptr⟩ := execAll_init_run hl [.patch]
    have hpatch := exec_patch_of_atEnd hend
    obtain ⟨-, -, hbytes⟩ := patchedSlotReadsAsResult t _ hend hpatch
    rw [hlen] at hbytes
    rw [hexec, execAll, hpatch]
    exact ⟨_, rfl, rfl, hacc, hptr, hbytes⟩

end Sys2Proof.Machine
end

section
/-! SUPPORT. The bus accesses, each as an equation (42_bus_access.md): the bits of STATUS, the value of a narrow read, a misaligned
image access, and a transaction whose descriptor does not decode. -/

namespace Sys2Proof.Machine

/-- STATUS bit by bit, bit 0 first (42_bus_access.md R143). -/
theorem getLsbD_statusWord (s : State) (n : Nat) :
    s.statusWord.getLsbD n =
      [s.atEnd, s.patched, s.lenOk, false, false, false, false, false, s.errCmd, s.errLen, s.errRange, s.errSeq].getD n
        false := by
  rw [State.statusWord, BitVec.getLsbD_setWidth]
  by_cases hn : n < 12
  · simp only [BitVec.getLsbD_append, BitVec.getLsbD_ofBool]
    interval_cases n <;> simp
  · rw [List.getD_eq_default _ _ (Nat.not_lt.1 hn), BitVec.getLsbD_of_ge _ _ (Nat.not_lt.1 hn), Bool.and_false]

/-- A 21-bit register reads as its value (30_encoding.md R82). -/
theorem toNat_zextLength (n : Length) : (zextLength n).toNat = n.toNat :=
  BitVec.toNat_setWidth_of_le (by decide)

/-- `MemRead(i, 2)` is its two bytes, the one at i lowest, zero-extended (30_encoding.md R82). -/
theorem memRead_two (f : Nat → Byte) (i : Nat) : memRead f i 2 = 0#16 ++ f (i + 1) ++ f i := by
  rw [show 0#16 = 0#8 ++ 0#8 from rfl]
  apply BitVec.eq_of_getLsbD_eq
  intro j hj
  rw [getLsbD_fourBytes, getLsbD_memRead _ _ _ _ (by omega)]
  by_cases h1 : j < 8
  · simp [h1, show j / 8 = 0 by omega, show j % 8 = j by omega, show j < 16 by omega]
  by_cases h2 : j < 16
  · simp [h1, h2, show j / 8 = 1 by omega, show j % 8 = j - 8 by omega]
  · simp [h1, h2]

theorem exec_lh_of_misaligned {off : Offset} (s : State) (ha : off.toNat % 2 ≠ 0) :
    exec (.lh off) s = .next (s.answer ⟨0#32, true⟩) :=
  congrArg _ (imgLoad_of_misaligned s ha)

theorem exec_lw_of_misaligned {off : Offset} (s : State) (ha : off.toNat % 4 ≠ 0) :
    exec (.lw off) s = .next (s.answer ⟨0#32, true⟩) :=
  congrArg _ (imgLoad_of_misaligned s ha)

theorem exec_sh_of_misaligned {off : Offset} (v : Word) (s : State) (ha : off.toNat % 2 ≠ 0) :
    exec (.sh off v) s = .next (s.answer ⟨0#32, true⟩) :=
  congrArg _ (imgStore_of_misaligned v s ha)

theorem exec_sw_of_misaligned {off : Offset} (v : Word) (s : State) (ha : off.toNat % 4 ≠ 0) :
    exec (.sw off v) s = .next (s.answer ⟨0#32, true⟩) :=
  congrArg _ (imgStore_of_misaligned v s ha)

/-- A transaction whose descriptor does not decode is a bus error (60_exceptions.md R183, R184). -/
theorem step_of_decodeAccess_error {s : State} {r : Request} {rest : List HostEvent} {e : BusErrorCase}
    (hs : s.inputs = .access r :: rest) (hd : decodeAccess r.desc r.wdata = .error e) :
    step s = .next s.dropInput.busError := by
  simp only [step, hs, hd]

end Sys2Proof.Machine
end

section
/-! PROOFS. Undecodable transactions (O10). -/

namespace Sys2Proof.Machine

/-- What decodes fits a row of the map (`DescriptorOf.exists_row`), and so what fits none is an error (30_encoding.md R85). -/
theorem exists_decodeAccess_error_of_fits_no_row {d : Word} (h : ∀ row ∈ accessRows, row.fits d = false) (v : Word) :
    ∃ e, decodeAccess d v = .error e := by
  cases hd : decodeAccess d v with
  | error e => exact ⟨e, rfl⟩
  | ok i =>
    obtain ⟨row, hrow, hfits, -⟩ := (descriptorOf_of_decodeAccess hd).exists_row
    exact absurd ((h row hrow).symm.trans hfits) Bool.false_ne_true

/-- Settles O10: what fits no row does not decode, and the step is then a bus error. -/
theorem undecodableTransactionIsABusError : Obligations.UndecodableTransactionIsABusError := by
  refine ⟨fun s d v rest hs hrows => ?_, by decide⟩
  obtain ⟨e, hd⟩ := exists_decodeAccess_error_of_fits_no_row hrows v
  rw [step_of_decodeAccess_error hs hd, State.dropInput_of_cons hs]
  rfl

end Sys2Proof.Machine
end

section
/-! PROOFS. The image window (O43, O44). -/

namespace Sys2Proof.Machine

/-- Settles O43: an aligned read answers `MemRead`, which is its bytes. -/
theorem imageReadsAreLittleEndian : Obligations.ImageReadsAreLittleEndian := by
  refine fun s off => ⟨?_, fun ha => ?_, fun ha => ?_, exec_lh_of_misaligned s, exec_lw_of_misaligned s⟩
  · rw [exec_lb, State.memRead, memRead_one]
    rfl
  · rw [exec_lh_of_aligned s ha, State.memRead, memRead_two]
    rfl
  · rw [exec_lw_of_aligned s ha, State.memRead, memRead_four]
    rfl

/-- Settles O44: an aligned write is a `MemWrite`, whose byte k is byte k of its wdata. -/
theorem imageWritesStoreTheirBytes : Obligations.ImageWritesStoreTheirBytes := by
  intro s off v
  have stored : ∀ n k, k < n → (s.memWrite off.toNat n v).imgByte (off.toNat + k) = v.extractLsb' (8 * k) 8 :=
    fun n k => s.imgByte_memWrite_in off.toNat n v k
  have kept : ∀ n a, a < off.toNat ∨ off.toNat + n ≤ a → (s.memWrite off.toNat n v).imgByte a = s.imgByte a :=
    fun n => s.imgByte_memWrite_out off.toNat n v
  refine ⟨?_, fun ha => ?_, fun ha => ?_, exec_sh_of_misaligned v s, exec_sw_of_misaligned v s⟩
  · exact ⟨_, exec_sb off v s, stored 1 0 (by omega), fun a hne => kept 1 a (by omega), rfl⟩
  · exact ⟨_, exec_sh_of_aligned v s ha, stored 2 0 (by omega), stored 2 1 (by omega), kept 2, rfl⟩
  · exact ⟨_, exec_sw_of_aligned v s ha, stored 4 0 (by omega), stored 4 1 (by omega), stored 4 2 (by omega),
      stored 4 3 (by omega), kept 4, rfl⟩

end Sys2Proof.Machine
end

section
/-! PROOFS. The register window (O38, O39, O41, O42). -/

namespace Sys2Proof.Machine

/-- Settles O38: a register read answers `regRead`. -/
theorem registerReadsAnswerTheirValue : Obligations.RegisterReadsAnswerTheirValue := by
  intro s
  refine ⟨exec_readInstr .cmd s, exec_readInstr .poly s, ⟨_, exec_readInstr .len s, toNat_zextLength s.len⟩,
    ⟨_, exec_readInstr .ptr s, toNat_zextLength s.ptr, fun hinv => ?_⟩, exec_readInstr .acc s,
    ⟨_, exec_readInstr .result s, extractLsb'_fourBytes _ _ _ _⟩, exec_readInstr .seed s,
    fun j => exec_readInstr (.rsvd j) s⟩
  obtain ⟨halign, -, -⟩ := hinv
  exact (congrArg (· % 4) (toNat_zextLength s.ptr)).trans halign

/-- Settles O39: the bits are `getLsbD_statusWord`, END with its definition unfolded. -/
theorem statusReadsItsFields : Obligations.StatusReadsItsFields := by
  intro s
  have bit := getLsbD_statusWord s
  refine ⟨s.statusWord, exec_readInstr .status s, bit 0, bit 1, bit 2, bit 8, bit 9, bit 10, bit 11, fun n hn => ?_⟩
  rw [bit n]
  rcases hn with ⟨hlo, hhi⟩ | hn
  · interval_cases n <;> rfl
  · exact List.getD_eq_default _ _ hn

/-- Settles O41: `regWrite` keeps the state at each of these registers. -/
theorem readOnlyRegistersIgnoreWrites : Obligations.ReadOnlyRegistersIgnoreWrites := by
  intro s v j i hi
  simp only [List.mem_cons, List.not_mem_nil, or_false] at hi
  rcases hi with rfl | rfl | rfl | rfl | rfl | rfl
  exacts [exec_writeInstr .status v s, exec_writeInstr .ptr v s, exec_writeInstr .acc v s, exec_writeInstr .result v s,
    exec_writeInstr .seed v s, exec_writeInstr (.rsvd j) v s]

/-- LENOK once LEN is written (10_state.md R33). -/
theorem lenOk_with_len_iff (s : State) (n : Length) :
    { s with len := n }.lenOk = true ↔ n.toNat % 4 = 0 ∧ 4 ≤ n.toNat ∧ n.toNat ≤ 0x100000 :=
  State.lenOk_iff _

/-- Settles O42: of the three lengths of R148, the second fails LENOK as it is above IMG_CAP. -/
theorem polyAndLenStoreTheirWrites : Obligations.PolyAndLenStoreTheirWrites := by
  refine fun s v => ⟨exec_writeInstr .poly v s, _, exec_writeInstr .len v s, rfl, ?_, ?_, ?_⟩
  · rintro rfl
    exact (lenOk_with_len_iff s 0x100000#21).2 (by decide)
  · rintro rfl
    exact ⟨rfl, Bool.eq_false_iff.2 fun hl => absurd ((lenOk_with_len_iff s 0x100004#21).1 hl) (by decide)⟩
  · rintro rfl
    rfl

end Sys2Proof.Machine
end

section
/-! PROOFS. The idle block (O13). -/

namespace Sys2Proof.Machine

/-- Settles O13: with no event waiting, `step` takes its idle branch (60_exceptions.md R195). -/
theorem idleStepKeepsTheState : Obligations.IdleStepKeepsTheState := by
  intro s hs
  simp only [step, hs]

end Sys2Proof.Machine
end

section
/-! SUPPORT. STEP as an instruction of the opcode table, a list of instructions taken one at a time, and the reset event. -/

namespace Sys2Proof.Machine

theorem exec_step (s : State) : exec .step s = .next (cmdStep s).answerWrite := exec_toInstr .step s

theorem execAll_cons_of_next {i : Instr} {is : List Instr} {s t : State} (h : exec i s = .next t) :
    execAll (i :: is) s = execAll is t := by
  rw [execAll, h]

/-- A reset event is taken from the port and clears every register (70_reset_and_hazards.md R200). -/
theorem step_of_reset {s : State} {rest : List HostEvent} (hs : s.inputs = .reset :: rest) :
    step s = .next s.dropInput.resetInput := by
  simp only [step, hs]

end Sys2Proof.Machine
end

section
/-! PROOFS. The bytes behind PTR (O57): word steps read IMG from PTR on, so that an image with the same bytes there can be put in
place before them or after them. -/

namespace Sys2Proof.Machine

/-- The state with another image. -/
def State.withImg (s : State) (m : Memory) : State := { s with img := m }

variable {s : State} {m : Memory}

/-- A word step reads at PTR and above alone (40_crc_arithmetic.md R103). -/
theorem wordStep_withImg (himg : ∀ a, s.ptr.toNat ≤ a → (s.withImg m).imgByte a = s.imgByte a) :
    (s.withImg m).wordStep = s.wordStep.withImg m := by
  have hword : (s.withImg m).memRead s.ptr.toNat 4 = s.memRead s.ptr.toNat 4 := memRead_congr _ _ fun a ha _ => himg a ha
  exact congrArg (fun w => { s.wordStep.withImg m with acc := wordUpdate s.acc w s.poly }) hword

/-- The checks of STEP read LEN and PTR alone, so that both sides take the same branch. -/
theorem cmdStep_withImg (himg : ∀ a, s.ptr.toNat ≤ a → (s.withImg m).imgByte a = s.imgByte a) :
    cmdStep (s.withImg m) = (cmdStep s).withImg m := by
  simp only [cmdStep, apply_ite (State.withImg · m), ← wordStep_withImg himg]
  rfl

/-- Below a valid slot PTR does not wrap, so that the loop of RUN never comes back behind it (41_commands.md R128). -/
theorem runLoop_withImg {n : Nat} (hl : s.lenOk = true)
    (himg : ∀ a, s.ptr.toNat ≤ a → (s.withImg m).imgByte a = s.imgByte a) :
    runLoop n (s.withImg m) = (runLoop n s).withImg m := by
  induction n generalizing s with
  | zero => rfl
  | succ n ih =>
    rw [runLoop, runLoop]
    by_cases hp : s.ptr.toNat < s.slot
    · obtain ⟨-, -, hcap⟩ := s.lenOk_iff.1 hl
      have hslot : s.slot = s.len.toNat - 4 := rfl
      have hptr : s.wordStep.ptr.toNat = s.ptr.toNat + 4 := State.toNat_ptr_wordStep (by omega)
      have hrest : runLoop n (s.wordStep.withImg m) = (runLoop n s.wordStep).withImg m :=
        ih hl fun a ha => himg a (by omega)
      rw [if_pos hp, ← hrest, ← wordStep_withImg himg]
      exact if_pos hp
    · rw [if_neg hp]
      exact if_neg hp

theorem cmdRun_withImg (himg : ∀ a, s.ptr.toNat ≤ a → (s.withImg m).imgByte a = s.imgByte a) :
    cmdRun (s.withImg m) = (cmdRun s).withImg m := by
  cases hl : s.lenOk with
  | false =>
    rw [cmdRun_of_lenOk_false hl]
    exact cmdRun_of_lenOk_false (s := s.withImg m) hl
  | true =>
    simp only [cmdRun, apply_ite (State.withImg · m), ← runLoop_withImg hl himg]
    rfl

/-- Settles O57: STEP and RUN commute with the change of IMG (`cmdStep_withImg`, `cmdRun_withImg`). -/
theorem wordStepsNeverReadBehindPtr : Obligations.WordStepsNeverReadBehindPtr := by
  intro s m c hc himg
  simp only [List.mem_cons, List.not_mem_nil, or_false] at hc
  rcases hc with rfl | rfl
  · have hexec := exec_step (s.withImg m)
    rw [cmdStep_withImg himg] at hexec
    exact ⟨_, _, exec_step s, hexec, rfl⟩
  · have hexec := exec_run (s.withImg m)
    rw [cmdRun_withImg himg] at hexec
    exact ⟨_, _, exec_run s, hexec, rfl⟩

end Sys2Proof.Machine
end

section
/-! PROOFS. POLY and LEN written between commands (O55, O56). -/

namespace Sys2Proof.Machine

/-- Settles O55: each STEP is a word step under POLY as it stands, the second from PTR + 4. -/
theorem polyWriteChangesTheRemainingWords : Obligations.PolyWriteChangesTheRemainingWords := by
  intro s q hl hp
  have hslot : s.slot = s.len.toNat - 4 := rfl
  have hcap := s.slot_lt
  have hptr : s.wordStep.ptr.toNat = s.ptr.toNat + 4 := State.toNat_ptr_wordStep (by omega)
  have hptr' : s.wordStep.wordStep.ptr.toNat = s.wordStep.ptr.toNat + 4 := State.toNat_ptr_wordStep (by omega)
  have hfirst := exec_step_of_ok hl (show s.ptr.toNat + 4 ≤ s.slot by omega)
  have hsecond := exec_step_of_ok (s := ({ s.wordStep.answerWrite with poly := q } : State).answerWrite) hl
    (show s.wordStep.ptr.toNat + 4 ≤ s.slot by omega)
  refine ⟨_, (execAll_cons_of_next hfirst).trans <| (execAll_cons_of_next (exec_writeInstr .poly q _)).trans <|
    execAll_cons_of_next hsecond, rfl, ?_, ?_⟩
  · change s.wordStep.wordStep.ptr.toNat = s.ptr.toNat + 8
    omega
  · rw [← hptr]
    rfl

/-- With PTR above the slot, a STEP and a RUN set ERR_RANGE, a PATCH sets ERR_SEQ, and nothing else changes but the responses
(41_commands.md R123). -/
theorem execAll_step_run_patch_of_past {s : State} (hl : s.lenOk = true) (hp : s.slot < s.ptr.toNat) :
    ∃ rs, execAll [.step, .run, .patch] s = .next { s with errRange := true, errSeq := true, responses := rs } := by
  have hstep : cmdStep s = s.raiseErrRange := cmdStep_of_past hl (by omega)
  have hrun := cmdRun_of_past (s := s.raiseErrRange.answerWrite) hl hp
  have hpatch := cmdPatch_of_ne_slot (s := s.raiseErrRange.answerWrite.raiseErrRange.answerWrite) hl hp.ne'
  have hall : execAll [.step, .run, .patch] s =
      .next s.raiseErrRange.answerWrite.raiseErrRange.answerWrite.raiseErrSeq.answerWrite := by
    simp only [execAll, exec_step, exec_run, exec_patch, hstep, hrun, hpatch]
  exact ⟨_, hall⟩

/-- Settles O56: the three commands find PTR above the new slot. -/
theorem lenLoweredBelowPtrIsRefused : Obligations.LenLoweredBelowPtrIsRefused := by
  intro s v hl hp
  obtain ⟨rs, hrest⟩ := execAll_step_run_patch_of_past (s := ({ s with len := lenOperand v } : State).answerWrite) hl hp
  exact ⟨_, (execAll_cons_of_next (exec_writeInstr .len v s)).trans hrest, rfl, rfl, rfl, rfl, rfl, rfl, rfl, rfl⟩

end Sys2Proof.Machine
end

section
/-! PROOFS. The reset event and INIT (O11, O54), and the commands while LEN fails LENOK, as after reset (O53). -/

namespace Sys2Proof.Machine

/-- After reset every bit of STATUS is 0: LEN = 0 fails LENOK, and so END is 0 too (70_reset_and_hazards.md R201). -/
theorem statusWord_resetInput (s : State) : s.resetInput.statusWord = 0#32 :=
  show State.reset.statusWord = 0#32 by decide

/-- SEED reads the same with its bytes reversed, so that RESULT after reset is SEED (70_reset_and_hazards.md R201). -/
theorem bswap32_seed : bswap32 Config.seed = Config.seed := by decide

/-- Settles O11: the fields are those of `State.resetInput`, and each read answers `regRead` of them. -/
theorem resetGivesEveryRegisterItsValue : Obligations.ResetGivesEveryRegisterItsValue := by
  refine fun s rest hs => ⟨_, step_of_reset hs, rfl, rfl, rfl, rfl, rfl, rfl, rfl, rfl, rfl, fun _ => rfl, ?_⟩
  generalize s.dropInput = u
  have hstatus := exec_readInstr .status u.resetInput
  have hresult := exec_readInstr .result u.resetInput
  rw [regRead, statusWord_resetInput] at hstatus
  rw [regRead, State.resetInput_acc, bswap32_seed] at hresult
  exact ⟨exec_readInstr .cmd _, hstatus, exec_readInstr .poly _, exec_readInstr .len _, exec_readInstr .ptr _,
    exec_readInstr .acc _, hresult, exec_readInstr .seed _, fun j => exec_readInstr (.rsvd j) _⟩

/-- After INIT only POLY, LEN, IMG and the port can differ from the state after reset (70_reset_and_hazards.md R203). -/
theorem cmdInit_eq_reset_with (s : State) :
    cmdInit s = { State.reset with
      poly := s.poly, len := s.len, img := s.img, draw := s.draw, inputs := s.inputs, responses := s.responses } := rfl

/-- Settles O54, by `cmdInit_eq_reset_with`. -/
theorem initIsNotAReset : Obligations.InitIsNotAReset := by
  refine fun s => ⟨_, exec_init s, rfl, rfl, rfl, fun hpoly hlen => ?_⟩
  rw [cmdInit_eq_reset_with, hpoly, hlen]
  rfl

/-- Settles O53: LENOK is the first check of each of the three commands (41_commands.md R123). -/
theorem commandsOnlySetErrLenUntilLenIsWritten : Obligations.CommandsOnlySetErrLenUntilLenIsWritten := by
  refine ⟨rfl, rfl, fun s hl c hc => ?_⟩
  simp only [List.mem_cons, List.not_mem_nil, or_false] at hc
  rcases hc with rfl | rfl | rfl
  · rw [exec_step, cmdStep_of_lenOk_false hl]
    rfl
  · rw [exec_run, cmdRun_of_lenOk_false hl]
    rfl
  · rw [exec_patch, cmdPatch_of_lenOk_false hl]
    rfl

end Sys2Proof.Machine
end

section
/-! PROOFS. Progress (O15). -/

namespace Sys2Proof.Machine

/-- Settles O15: an idle step, a reset and a bus error answer a state themselves, and a decoded transaction is an instruction
(`exec_next`). -/
theorem everyStepHasANextState : Obligations.EveryStepHasANextState := by
  refine ⟨fun s => ?_, exec_next⟩
  match hs : s.inputs with
  | [] => exact ⟨s, idleStepKeepsTheState s hs⟩
  | .reset :: rest => exact ⟨_, step_of_reset hs⟩
  | .access r :: rest =>
    cases hd : decodeAccess r.desc r.wdata with
    | error e => exact ⟨_, step_of_decodeAccess_error hs hd⟩
    | ok i =>
      rw [stepPerformsTheDecodedTransaction s r.desc r.wdata rest i hs hd]
      exact exec_next i _

end Sys2Proof.Machine
end

section
/-! PROOFS. The host's side of the port (O14, O12): the placing of an instruction as the next transaction, and what reset leaves. -/

namespace Sys2Proof.Machine

/-- A transaction that decodes and is issued next is performed by the next step, after which the host's other events remain. -/
theorem step_pushRequest {r : Request} {i : Instr} (h : decodeAccess r.desc r.wdata = .ok i) (s : State) :
    step (s.pushRequest r) = exec i s :=
  stepPerformsTheDecodedTransaction (s.pushRequest r) r.desc r.wdata s.inputs i rfl h

/-- The request of a command decodes to the CMD write of its word (30_encoding.md R89). -/
theorem decodeAccess_request (c : Command) : decodeAccess c.request.desc c.request.wdata = .ok (.wrCmd c.word) :=
  (DescriptorOf.writeReg .cmd).decodeAccess_eq

/-- Settles O14: a command word is placed as the CMD write that issues it, any other word as the transaction it describes. -/
theorem placedTableWordIsPerformedNext : Obligations.PlacedTableWordIsPerformedNext := by
  intro s nbits w i h
  simp only [decodeTableWord, decodeWords] at h
  simp only [State.withFetchWord, tableRequest]
  cases hc : decodeCommand (tableFirst nbits w) with
  | ok c =>
    simp only [hc, Except.toOption, Option.some.injEq] at h
    subst h
    calc step (s.pushRequest c.request)
      _ = exec (.wrCmd c.word) s := step_pushRequest (decodeAccess_request c) s
      _ = exec c.toInstr s := exec_wrCmd_word c s
  | error e =>
    cases hd : decodeAccess (tableFirst nbits w) (tableSecond nbits w) with
    | ok j =>
      simp only [hc, hd, Except.toOption, Option.some.injEq] at h
      subst h
      exact step_pushRequest (r := ⟨_, _⟩) hd s
    | error e' => simp [hc, hd, Except.toOption] at h

/-- Settles O12: `State.resetInput` keeps the port and raises the number of the draw by one. -/
theorem resetKeepsTheHostsSide : Obligations.ResetKeepsTheHostsSide := by
  intro s rest hs
  refine ⟨_, step_of_reset hs, ?_⟩
  rw [State.dropInput_of_cons hs]
  exact ⟨rfl, rfl, Nat.succ_ne_self s.draw⟩

end Sys2Proof.Machine
end
